-- ==== Sys2Proof/Word.lean ====
section
/-! DEFINITION. The word types of the CHIP-8 core: bytes, 16-bit words, the field widths of an
instruction word (spec/30_encoding.md R91) and the index types of registers and keys. -/

namespace Sys2Proof

/-- A byte: a V register, a timer, a memory byte, the field `nn` (R20, R28, R31, R91). -/
abbrev Byte := BitVec 8

/-- A 16-bit word: `pc`, `I`, a stack entry, an instruction word (R23, R25, R26, R90). -/
abbrev Word := BitVec 16

/-- The field `nnn` (R91). -/
abbrev Addr12 := BitVec 12

/-- A four-bit field of an instruction word (R91). -/
abbrev Nibble := BitVec 4

/-- A register number, naming V0 to VF (R20); no register number is out of range (R93). -/
abbrev Reg := Fin 16

/-- A key number, 0x0 to 0xF (R29). -/
abbrev Key := Fin 16

/-- VF, the register that is also the flag (R21). -/
abbrev regVF : Reg := 15

/-- V0, which Bnnn reads implicitly (R129). -/
abbrev regV0 : Reg := 0

end Sys2Proof
end

