-- ==== Sys2Proof/Machine/Framebuffer.lean ====
section
/-! DEFINITION. The framebuffer: 32 rows of 64 single-bit pixels (spec/10_state.md R30), read and written
one pixel at a time. -/

namespace Sys2Proof.Machine

/-- `FB` (R30): entry r is row r, and its entry c is column c. -/
abbrev Framebuffer := Vector (Vector Bool 64) 32

/-- Every pixel 0: the framebuffer after RESET (R36) and after the clear primitive (R199). -/
def Framebuffer.blank : Framebuffer := Vector.replicate 32 (Vector.replicate 64 false)

/-- `FB[r][c]`; off the grid, which no instruction reads, it is 0. -/
def Framebuffer.pixel (fb : Framebuffer) (r c : Nat) : Bool :=
  if h : r < 32 ∧ c < 64 then (fb[r]'h.1)[c]'h.2 else false

/-- `FB[r][c] <- b`; off the grid, which no instruction writes, nothing. -/
def Framebuffer.setPixel (fb : Framebuffer) (r c : Nat) (b : Bool) : Framebuffer :=
  if h : r < 32 ∧ c < 64 then fb.set r ((fb[r]'h.1).set c b h.2) h.1 else fb

end Sys2Proof.Machine
end

