-- ==== Sys2Proof/Config.lean ====
section
/-! DEFINITION. The sizes the spec fixes, the types of its OPEN parameters, and the one free value:
the random byte (spec/00_scope.md R11). The parameters' default VALUES stand in
Sys2Proof/Machine/Params.lean. -/

namespace Sys2Proof

/-- `MEM_SIZE` (R11): addresses 0x000 to 0xFFF. -/
abbrev memSize : Nat := 4096

/-- `PC_FETCH_MAX` (R11): the highest address a fetch may start at. -/
abbrev pcFetchMax : Nat := 0xFFE

/-- `PROGRAM_BASE` (R11). -/
abbrev programBase : Nat := 0x200

/-- `MAX_IMAGE` (R11): 3584 bytes fit from 0x200 to 0xFFF. -/
abbrev maxImage : Nat := 3584

/-- The font's length in bytes: 16 glyphs of 5 bytes, at 0x000 to 0x04F (R11, R65). -/
abbrev fontBytes : Nat := 80

/-- `FONT` (R11, R66): glyph g is entry g, its five rows from the top. -/
abbrev Font := Vector (Vector Byte 5) 16

/-- `LS_RANGE` (R255): which registers Fx55 and Fx65 transfer. -/
inductive LsRange where
  /-- V0 to VF, the source's text. -/
  | all
  /-- V0 to Vx. -/
  | throughX
  deriving DecidableEq, Repr

/-- `KEY_INDEX_POLICY` (R222): what Ex9E and ExA1 do with a value above 0x0F. -/
inductive KeyIndexPolicy where
  /-- Raise KEY_OUT_OF_RANGE. -/
  | fault
  /-- Take the low nibble. -/
  | lowNibble
  deriving DecidableEq, Repr

/-- The OPEN parameters of the core (R11): fixed for one machine, written by nothing. -/
structure Config where
  /-- `STACK_DEPTH` (R27); `none` is the unbounded stack of a software model. -/
  stackDepth : Option Nat
  /-- `LS_RANGE` (R255). -/
  lsRange : LsRange
  /-- `PC_ALIGN_CHECK` (R71). -/
  pcAlignCheck : Bool
  /-- `KEY_INDEX_POLICY` (R222). -/
  keyIndexPolicy : KeyIndexPolicy
  /-- `FONT` (R66). -/
  font : Font
  deriving DecidableEq, Repr

/-- FREE VALUE. The byte on the `rnd8` input at the n-th draw (R45, R182, D19). It has no body:
nothing is known of it, so whatever is proved holds for every sequence of draws. -/
opaque Config.rnd8 : Nat → Byte

end Sys2Proof
end

