-- ==== Sys2Proof/Machine/Memory.lean ====
section
/-! DEFINITION. Memory: 4096 bytes (spec/20_memory.md R60), kept as the list of the cells that differ from
their reset contents (R65, R66), addresses strictly rising. -/

namespace Sys2Proof.Machine

/-- `MEM` (R31): the cells whose byte is not the reset contents of its address. -/
abbrev Memory := List Host.Cell

/-- What an unlisted address reads as: its contents after RESET with an empty image, the font's byte
at 0x000 to 0x04F and 0x00 above (R36, R65, R66). -/
def resetByte (font : Font) (a : Nat) : Byte :=
  if h : a < fontBytes then
    (font[a / 5]'(Nat.div_lt_of_lt_mul h))[a % 5]'(Nat.mod_lt a (by decide))
  else 0

/-- `MEM[a]` (R14). -/
def Memory.read (font : Font) : Memory → Nat → Byte
  | [], a => resetByte font a
  | (a', b) :: m, a => if a = a' then b else Memory.read font m a

/-- The cell `(a, b)` in front of `m`, or `m` alone where `b` is what `a` reads as unlisted. -/
def Memory.putCell (font : Font) (a : Nat) (b : Byte) (m : Memory) : Memory :=
  if b = resetByte font a then m else (a, b) :: m

/-- `MEM[a] <- b` (R14), keeping the canonical form. -/
def Memory.write (font : Font) : Memory → Nat → Byte → Memory
  | [], a, b => Memory.putCell font a b []
  | (a', b') :: m, a, b =>
    if a < a' then Memory.putCell font a b ((a', b') :: m)
    else if a = a' then Memory.putCell font a b m
    else (a', b') :: Memory.write font m a b

/-- `MEM[a + k] <- bytes[k]` for every k, in address order. -/
def Memory.writeBytes (font : Font) : Memory → Nat → List Byte → Memory
  | m, _, [] => m
  | m, a, b :: bs => Memory.writeBytes font (Memory.write font m a b) (a + 1) bs

/-- The canonical form: addresses strictly rising and inside memory, no cell equal to its reset
contents. -/
abbrev Memory.wf (font : Font) (m : Memory) : Prop :=
  m.Pairwise (fun p q => p.1 < q.1) ∧ ∀ p ∈ m, p.1 < memSize ∧ p.2 ≠ resetByte font p.1

/-- The first address among `a, a + 1, …, a + n - 1` that is above 0xFFF, if any: the check of R62,
its loop as the spec writes it. -/
def firstOutOfRange : Nat → Nat → Option Nat
  | _, 0 => none
  | a, n + 1 => if a > 0xFFF then some a else firstOutOfRange (a + 1) n

end Sys2Proof.Machine
end

