-- ==== Sys2Proof/Machine/Params.lean ====
section
/-! DEFINITION. The default values of the core's OPEN parameters (spec/00_scope.md R11), the font among
them (spec/20_memory.md R66). -/

namespace Sys2Proof.Machine

/-- Glyphs 0 to 3 of the default font (R66). -/
def fontGlyphs0 : List (Vector Byte 5) :=
  [#v[0xF0, 0x90, 0x90, 0x90, 0xF0], #v[0x20, 0x60, 0x20, 0x20, 0x70],
   #v[0xF0, 0x10, 0xF0, 0x80, 0xF0], #v[0xF0, 0x10, 0xF0, 0x10, 0xF0]]

/-- Glyphs 4 to 7 of the default font (R66). -/
def fontGlyphs4 : List (Vector Byte 5) :=
  [#v[0x90, 0x90, 0xF0, 0x10, 0x10], #v[0xF0, 0x80, 0xF0, 0x10, 0xF0],
   #v[0xF0, 0x80, 0xF0, 0x90, 0xF0], #v[0xF0, 0x10, 0x20, 0x40, 0x40]]

/-- Glyphs 8 to B of the default font (R66). -/
def fontGlyphs8 : List (Vector Byte 5) :=
  [#v[0xF0, 0x90, 0xF0, 0x90, 0xF0], #v[0xF0, 0x90, 0xF0, 0x10, 0xF0],
   #v[0xF0, 0x90, 0xF0, 0x90, 0x90], #v[0xE0, 0x90, 0xE0, 0x90, 0xE0]]

/-- Glyphs C to F of the default font (R66). -/
def fontGlyphsC : List (Vector Byte 5) :=
  [#v[0xF0, 0x80, 0x80, 0x80, 0xF0], #v[0xE0, 0x90, 0x90, 0x90, 0xE0],
   #v[0xF0, 0x80, 0xF0, 0x80, 0xF0], #v[0xF0, 0x80, 0xF0, 0x80, 0x80]]

/-- The default `FONT` (R66). -/
def defaultFont : Font :=
  ⟨(fontGlyphs0 ++ fontGlyphs4 ++ fontGlyphs8 ++ fontGlyphsC).toArray, rfl⟩

/-- The hardware value of `STACK_DEPTH` (R11, R27). -/
def defaultStackDepth : Option Nat := some 16

/-- The default `LS_RANGE` (R255). -/
def defaultLsRange : LsRange := .all

/-- The default `PC_ALIGN_CHECK` (R71). -/
def defaultPcAlignCheck : Bool := false

/-- The default `KEY_INDEX_POLICY` (R222). -/
def defaultKeyIndexPolicy : KeyIndexPolicy := .fault

/-- The parameters at their default values (R11). -/
def defaultConfig : Config :=
  { stackDepth := defaultStackDepth
    lsRange := defaultLsRange
    pcAlignCheck := defaultPcAlignCheck
    keyIndexPolicy := defaultKeyIndexPolicy
    font := defaultFont }

end Sys2Proof.Machine
end

