-- ==== Sys2Proof/Machine/State.lean ====
section
/-! DEFINITION. The machine's state as plain data (spec/10_state.md R20 to R36), the events it emits
(spec/60_exceptions.md R285), the outcome of a step, and the state after RESET with an empty image. -/

namespace Sys2Proof.Machine

/-- The causes of a fault (R271). Codes 7 to 15 are never produced, so they have no name. -/
inductive FaultCode where
  /-- Code 0, NONE: no fault. -/
  | noFault
  /-- Code 1, FETCH_OUT_OF_RANGE: a fetch with `pc > 0xFFE`. -/
  | fetchOutOfRange
  /-- Code 2, FETCH_MISALIGNED: a fetch from an odd `pc` under PC_ALIGN_CHECK. -/
  | fetchMisaligned
  /-- Code 3, STACK_UNDERFLOW: 00EE with an empty stack. -/
  | stackUnderflow
  /-- Code 4, STACK_OVERFLOW: 2nnn with a full stack. -/
  | stackOverflow
  /-- Code 5, MEM_OUT_OF_RANGE: an access through `I` above 0xFFF. -/
  | memOutOfRange
  /-- Code 6, KEY_OUT_OF_RANGE: Ex9E or ExA1 with `Vx > 0x0F` under KEY_INDEX_POLICY = FAULT. -/
  | keyOutOfRange
  deriving DecidableEq, Repr

/-- The kinds of report (R281). -/
inductive ReportKind where
  /-- UNKNOWN_OPCODE (R102). -/
  | unknownOpcode
  /-- LEGACY_SYS (R122). -/
  | legacySys
  deriving DecidableEq, Repr

/-- The events of the output stream (R285). -/
inductive Event where
  /-- `FrameCleared`, by CLS (R120). -/
  | frameCleared
  /-- `FrameUpdated(FB)`, by Dxyn (R196). -/
  | frameUpdated (fb : Framebuffer)
  /-- `Report(kind, op, addr)` (R281). -/
  | report (kind : ReportKind) (op addr : Word)
  /-- `Fault(code, pc, addr, op)` (R272). -/
  | fault (code : FaultCode) (pc addr op : Word)
  deriving DecidableEq, Repr

/-- The state of the core (R20 to R35), with its output record, its parameters and the count of the
random bytes drawn. -/
structure State where
  /-- V0 to VF (R20, R21). -/
  v : Vector Byte 16
  /-- The program counter (R23). -/
  pc : Word
  /-- The index register (R25). -/
  i : Word
  /-- The call stack, the entry pushed last first; its length is `depth` (R26, R27). -/
  stack : List Word
  /-- The delay timer (R28). -/
  dt : Byte
  /-- The sound timer (R28). -/
  st : Byte
  /-- The keypad snapshot; `true` is pressed (R29). -/
  keys : Vector Bool 16
  /-- The framebuffer (R30). -/
  fb : Framebuffer
  /-- Memory (R31). -/
  mem : Memory
  /-- `WAITING` (R32, R35). -/
  waiting : Bool
  /-- `WAIT_X` (R32, R35). -/
  waitX : Reg
  /-- `HALTED` (R35). -/
  halted : Bool
  /-- `FAULT_CODE` (R35, R271). -/
  faultCode : FaultCode
  /-- `FAULT_PC` (R35). -/
  faultPc : Word
  /-- `FAULT_ADDR` (R35). -/
  faultAddr : Word
  /-- `FAULT_OP` (R35). -/
  faultOp : Word
  /-- The event stream, oldest first (R46, R285). -/
  events : List Event
  /-- The model's own: how many bytes the `rnd8` input has supplied (R182). -/
  rndDraws : Nat
  /-- The parameters of this machine (R11); nothing writes them. -/
  cfg : Config
  deriving DecidableEq, Repr

/-- The reasons a step could stop with the host's `fault` outcome. There is none: each of the spec's
faults has an entry the spec describes (R272), so it is a next state with `HALTED = 1`, and every STEP
has a successor (R327). -/
inductive Fault where
  deriving DecidableEq, Repr

/-- The reasons an outcome is refused. -/
inductive Refusal where
  /-- Raised by an arm of `exec` for an instruction that has no meaning yet; there is none. Safe: the
  run stops. -/
  | notModelled (mnemonic : String)
  /-- Raised by the RESET transaction, never by a step, for an image of more than 3584 bytes: "the
  transaction is *refused*" (R311). Safe: the spec gives it no meaning. -/
  | imageTooLong
  deriving DecidableEq, Repr

/-- How a meaning, a step or a transaction ends. -/
abbrev Result := Host.Outcome State Fault Refusal

/-- The state after RESET with an empty image, the parameters at their defaults (R36, R310). -/
def State.reset : State :=
  { v := Vector.replicate 16 0
    pc := 0x200
    i := 0x200
    stack := []
    dt := 0
    st := 0
    keys := Vector.replicate 16 false
    fb := Framebuffer.blank
    mem := []
    waiting := false
    waitX := 0
    halted := false
    faultCode := .noFault
    faultPc := 0
    faultAddr := 0
    faultOp := 0
    events := []
    rndDraws := 0
    cfg := defaultConfig }

end Sys2Proof.Machine
end

