-- ==== Sys2Proof/Machine/Ops.lean ====
section
/-! DEFINITION. The shared operations over registers, memory, the stack, the event stream and the fault
entry (spec/10_state.md R20, R27; spec/20_memory.md R62, R64; spec/60_exceptions.md R272). -/

namespace Sys2Proof.Machine

/-- `V[x]` (R14). -/
def State.reg (s : State) (x : Reg) : Byte := s.v[x.val]

/-- `V[x] <- b` (R14). -/
def State.setReg (s : State) (x : Reg) (b : Byte) : State :=
  { s with v := s.v.set x.val b }

/-- `pc <- a` (R14). -/
def State.setPc (s : State) (a : Word) : State := { s with pc := a }

/-- `I <- a` (R14). -/
def State.setI (s : State) (a : Word) : State := { s with i := a }

/-- `MEM[a]` (R14). -/
def State.byteAt (s : State) (a : Nat) : Byte := Memory.read s.cfg.font s.mem a

/-- `MEM[a] <- b` (R14). -/
def State.setByte (s : State) (a : Nat) (b : Byte) : State :=
  { s with mem := Memory.write s.cfg.font s.mem a b }

/-- `MEM[a] || MEM[a+1]`, big-endian (R64). -/
def State.wordAt (s : State) (a : Nat) : Word := s.byteAt a ++ s.byteAt (a + 1)

/-- `FB[r][c]` (R14). -/
def State.pixel (s : State) (r c : Nat) : Bool := s.fb.pixel r c

/-- `KEY[k]` (R14). -/
def State.key (s : State) (k : Key) : Bool := s.keys[k.val]

/-- `emit E` (R14, R285). -/
def State.emit (s : State) (e : Event) : State := { s with events := s.events ++ [e] }

/-- `pc_start`, the address of the instruction being executed: the fetch advanced `pc` by 2 (R23, R96). -/
def State.pcStart (s : State) : Word := s.pc - 2

/-- A taken skip: `pc <- pc + 2` when the condition holds (R131). -/
def State.skipIf (s : State) (cond : Bool) : State :=
  if cond then s.setPc (s.pc + 2) else s

/-- Fault entry from the state before the faulting STEP, whose `pc` is `pc_start`: the status registers
are written, the core halts and the Fault event is emitted; nothing else changes (R272). -/
def State.enterFault (s : State) (code : FaultCode) (addr op : Word) : State :=
  { s with
    halted := true
    faultCode := code
    faultPc := s.pc
    faultAddr := addr
    faultOp := op
    events := s.events ++ [.fault code s.pc addr op] }

/-- `raise Fault(code, addr)` while the word `op` executes (R14, R272): `s` is the state as the fetch
left it, so undoing the STEP is putting `pc` back to `pc_start`. -/
def raise (code : FaultCode) (addr op : Word) (s : State) : Result :=
  .next ((s.setPc s.pcStart).enterFault code addr op)

/-- The stack holds `STACK_DEPTH` entries (R27). -/
def State.stackFull (s : State) : Bool :=
  match s.cfg.stackDepth with
  | none => false
  | some d => s.stack.length == d

/-- `Push(a)` on a stack that is not full (R27). -/
def State.push (s : State) (a : Word) : State := { s with stack := a :: s.stack }

/-- Run a data access of the `n` bytes at `I`: MEM_OUT_OF_RANGE with the first address above 0xFFF
before anything is written, else the effect (R62, R63). -/
def withBytesAtI (n : Nat) (op : Word) (s : State) (effect : State → State) : Result :=
  match firstOutOfRange s.i.toNat n with
  | some a => raise .memOutOfRange (BitVec.ofNat 16 a) op s
  | none => .next (effect s)

/-- `draw rnd8` (R14, R45): the byte of the next draw, and the state that has drawn it. -/
def State.drawRnd8 (s : State) : Byte × State :=
  (Config.rnd8 s.rndDraws, { s with rndDraws := s.rndDraws + 1 })

/-- Some key is pressed (R223, R224). -/
def State.someKey (s : State) : Bool := s.keys.any id

/-- `LowestKey()` as the byte stored in Vx: the smallest k with `KEY[k] = 1` (R225). -/
def State.lowestKey (s : State) : Byte := BitVec.ofNat 8 (s.keys.toList.findIdx id)

end Sys2Proof.Machine
end

