-- ==== Sys2Proof/Machine/Flags.lean ====
section
/-! DEFINITION. The values VF takes as a flag, and the order in which a result and its flag are written
(spec/41_register_arithmetic.md R161, R162). -/

namespace Sys2Proof.Machine

/-- A flag as the byte VF holds: 1 or 0. -/
def flagByte (b : Bool) : Byte := if b then 1 else 0

/-- Carry (R156): the exact sum exceeds 0xFF. -/
def carryOf (a b : Byte) : Bool := decide (a.toNat + b.toNat > 0xFF)

/-- Borrow status (R157, R159): the minuend is strictly greater than the subtrahend. -/
def notBorrowOf (minuend subtrahend : Byte) : Bool := decide (minuend.toNat > subtrahend.toNat)

/-- The bit a shift right by one puts out: bit 0 (R158). -/
def shrOut (a : Byte) : Bool := a.getLsbD 0

/-- The bit a shift left by one puts out: bit 7 (R160). -/
def shlOut (a : Byte) : Bool := a.getLsbD 7

/-- Write the result to Vx, then the flag to VF, so VF ends as the flag when x is 0xF (R161). -/
def State.setRegFlag (s : State) (x : Reg) (result : Byte) (flag : Bool) : State :=
  (s.setReg x result).setReg regVF (flagByte flag)

end Sys2Proof.Machine
end

