-- ==== Sys2Proof/Machine/Operands.lean ====
section
/-! DEFINITION. The operand forms that need a computation: 12-bit and 8-bit immediates widened, key
indices, the last register of a block transfer, sprite geometry (spec/30_encoding.md R93;
spec/44_input.md R222; spec/46_memory_block.md R255; spec/43_sprite_draw.md R190, R191). -/

namespace Sys2Proof.Machine

/-- `zext_16(nnn)` (R93). -/
def addrOperand (nnn : Addr12) : Word := nnn.zeroExtend 16

/-- `zext_16(b)` of a byte (R13). -/
def byteOperand (b : Byte) : Word := b.zeroExtend 16

/-- `KeyIndex(v)` (R222): `none` is KEY_OUT_OF_RANGE. -/
def keyIndex (policy : KeyIndexPolicy) (v : Byte) : Option Key :=
  if h : v.toNat < 16 then some ⟨v.toNat, h⟩
  else match policy with
    | .fault => none
    | .lowNibble => some ⟨v.toNat % 16, Nat.mod_lt _ (by decide)⟩

/-- `last` (R255): the last register Fx55 and Fx65 transfer. -/
def lastReg (range : LsRange) (x : Reg) : Nat :=
  match range with
  | .all => 0xF
  | .throughX => x.val

/-- `x0`, the column of a sprite's origin (R191). -/
def spriteCol (s : State) (x : Reg) : Nat := (s.reg x).toNat % 64

/-- `y0`, the row of a sprite's origin (R191). -/
def spriteRow (s : State) (y : Reg) : Nat := (s.reg y).toNat % 32

/-- `rows`, how many rows of the sprite are on the screen (R190, R192). -/
def spriteRows (n : Nibble) (y0 : Nat) : Nat := min n.toNat (32 - y0)

end Sys2Proof.Machine
end

