-- ==== Sys2Proof/Machine/Arithmetic.lean ====
section
/-! DEFINITION. Loads, adds, logic, subtractions and shifts of V registers
(spec/41_register_arithmetic.md R150 to R162). Operands are read before anything is written (R161). -/

namespace Sys2Proof.Machine

/-- LD Vx, nn (R150). -/
def execLdImm (x : Reg) (nn : Byte) (s : State) : Result := .next (s.setReg x nn)

/-- ADD Vx, nn (R151): wraps at 8 bits, no flag. -/
def execAddImm (x : Reg) (nn : Byte) (s : State) : Result := .next (s.setReg x (s.reg x + nn))

/-- LD Vx, Vy (R152). -/
def execLdReg (x y : Reg) (s : State) : Result := .next (s.setReg x (s.reg y))

/-- OR Vx, Vy (R153): VF is not cleared. -/
def execOrReg (x y : Reg) (s : State) : Result := .next (s.setReg x (s.reg x ||| s.reg y))

/-- AND Vx, Vy (R154). -/
def execAndReg (x y : Reg) (s : State) : Result := .next (s.setReg x (s.reg x &&& s.reg y))

/-- XOR Vx, Vy (R155). -/
def execXorReg (x y : Reg) (s : State) : Result := .next (s.setReg x (s.reg x ^^^ s.reg y))

/-- ADD Vx, Vy (R156): VF is the carry. -/
def execAddReg (x y : Reg) (s : State) : Result :=
  .next (s.setRegFlag x (s.reg x + s.reg y) (carryOf (s.reg x) (s.reg y)))

/-- SUB Vx, Vy (R157): Vx − Vy, minuend Vx. -/
def execSubReg (x y : Reg) (s : State) : Result :=
  .next (s.setRegFlag x (s.reg x - s.reg y) (notBorrowOf (s.reg x) (s.reg y)))

/-- SHR Vx (R158): Vy is neither read nor copied. -/
def execShr (x : Reg) (s : State) : Result :=
  .next (s.setRegFlag x (s.reg x >>> 1) (shrOut (s.reg x)))

/-- SUBN Vx, Vy (R159): Vy − Vx, minuend Vy. -/
def execSubnReg (x y : Reg) (s : State) : Result :=
  .next (s.setRegFlag x (s.reg y - s.reg x) (notBorrowOf (s.reg y) (s.reg x)))

/-- SHL Vx (R160): Vy is neither read nor copied. -/
def execShl (x : Reg) (s : State) : Result :=
  .next (s.setRegFlag x (s.reg x <<< 1) (shlOut (s.reg x)))

end Sys2Proof.Machine
end

