-- ==== Sys2Proof/Syntax.lean ====
section
/-! DEFINITION. The 35 instructions, one constructor per row of spec/opcode_table.json, in the table's
order (spec/30_encoding.md R101). A nibble that a word has and its instruction ignores (`n` of 5xyn and
9xyn, R94; `y` of 8xy6 and 8xyE, R98) is a field too, so that an instruction determines its word. -/

namespace Sys2Proof

/-- An instruction with its operands (R91, R93). -/
inductive Instr where
  /-- `00E0` CLS, clear the screen (R120). -/
  | cls
  /-- `00EE` RET, return from subroutine (R121). -/
  | ret
  /-- `0nnn` SYS nnn, the legacy routine call, a reported no-op (R122). -/
  | sys (nnn : Addr12)
  /-- `1nnn` JP nnn (R123). -/
  | jp (nnn : Addr12)
  /-- `2nnn` CALL nnn (R124). -/
  | call (nnn : Addr12)
  /-- `3xnn` SE Vx, nn (R125). -/
  | seImm (x : Reg) (nn : Byte)
  /-- `4xnn` SNE Vx, nn (R126). -/
  | sneImm (x : Reg) (nn : Byte)
  /-- `5xyn` SE Vx, Vy; `n` is not examined (R127, R94). -/
  | seReg (x y : Reg) (n : Nibble)
  /-- `6xnn` LD Vx, nn (R150). -/
  | ldImm (x : Reg) (nn : Byte)
  /-- `7xnn` ADD Vx, nn (R151). -/
  | addImm (x : Reg) (nn : Byte)
  /-- `8xy0` LD Vx, Vy (R152). -/
  | ldReg (x y : Reg)
  /-- `8xy1` OR Vx, Vy (R153). -/
  | orReg (x y : Reg)
  /-- `8xy2` AND Vx, Vy (R154). -/
  | andReg (x y : Reg)
  /-- `8xy3` XOR Vx, Vy (R155). -/
  | xorReg (x y : Reg)
  /-- `8xy4` ADD Vx, Vy (R156). -/
  | addReg (x y : Reg)
  /-- `8xy5` SUB Vx, Vy (R157). -/
  | subReg (x y : Reg)
  /-- `8xy6` SHR Vx; `y` is ignored (R158, R98). -/
  | shr (x y : Reg)
  /-- `8xy7` SUBN Vx, Vy (R159). -/
  | subnReg (x y : Reg)
  /-- `8xyE` SHL Vx; `y` is ignored (R160, R98). -/
  | shl (x y : Reg)
  /-- `9xyn` SNE Vx, Vy; `n` is not examined (R128, R94). -/
  | sneReg (x y : Reg) (n : Nibble)
  /-- `Annn` LD I, nnn (R180). -/
  | ldI (nnn : Addr12)
  /-- `Bnnn` JP V0, nnn (R129). -/
  | jpV0 (nnn : Addr12)
  /-- `Cxnn` RND Vx, nn (R182). -/
  | rnd (x : Reg) (nn : Byte)
  /-- `Dxyn` DRW Vx, Vy, n (R190). -/
  | drw (x y : Reg) (n : Nibble)
  /-- `Ex9E` SKP Vx (R220). -/
  | skp (x : Reg)
  /-- `ExA1` SKNP Vx (R221). -/
  | sknp (x : Reg)
  /-- `Fx07` LD Vx, DT (R240). -/
  | ldVxDt (x : Reg)
  /-- `Fx0A` LD Vx, K (R223). -/
  | ldVxK (x : Reg)
  /-- `Fx15` LD DT, Vx (R241). -/
  | ldDtVx (x : Reg)
  /-- `Fx18` LD ST, Vx (R242). -/
  | ldStVx (x : Reg)
  /-- `Fx1E` ADD I, Vx (R181). -/
  | addI (x : Reg)
  /-- `Fx29` LD F, Vx (R250). -/
  | ldF (x : Reg)
  /-- `Fx33` LD B, Vx (R251). -/
  | ldB (x : Reg)
  /-- `Fx55` LD [I], Vx; `x` counts only under LS_RANGE = THROUGH_X (R253, R255). -/
  | storeRegs (x : Reg)
  /-- `Fx65` LD Vx, [I]; `x` counts only under LS_RANGE = THROUGH_X (R254, R255). -/
  | loadRegs (x : Reg)
  deriving DecidableEq, Repr

end Sys2Proof
end

