-- ==== Sys2Proof/Decode.lean ====
section
/-! DEFINITION. The decoder, total on every 16-bit word and on every list of bytes (spec/30_encoding.md
R90 to R107), then the encoder written from the same patterns, then the rows of spec/opcode_table.json as
data. -/

namespace Sys2Proof

/-- The register a nibble names (R93). -/
def regOfNibble (b : Nibble) : Reg := ⟨b.toNat, b.isLt⟩

/-- The nibble that names a register (R93). -/
def nibbleOfReg (x : Reg) : Nibble := BitVec.ofNat 4 x.val

/-- Field `c`, bits 15 to 12 (R91). -/
def fieldC (op : Word) : Nibble := op.extractLsb' 12 4

/-- Field `x`, bits 11 to 8, as the register it names (R91). -/
def fieldX (op : Word) : Reg := regOfNibble (op.extractLsb' 8 4)

/-- Field `y`, bits 7 to 4, as the register it names (R91). -/
def fieldY (op : Word) : Reg := regOfNibble (op.extractLsb' 4 4)

/-- Field `n`, bits 3 to 0 (R91). -/
def fieldN (op : Word) : Nibble := op.extractLsb' 0 4

/-- Field `nn`, bits 7 to 0 (R91). -/
def fieldNN (op : Word) : Byte := op.extractLsb' 0 8

/-- Field `nnn`, bits 11 to 0 (R91). -/
def fieldNNN (op : Word) : Addr12 := op.extractLsb' 0 12

/-- What a word selects: one of the 35 instructions, or none, by name (R95, R102). -/
inductive Decoded where
  /-- The word selects this instruction. -/
  | instr (i : Instr)
  /-- `UNKNOWN(op)`: the word selects no instruction (R102). -/
  | unknown (op : Word)
  deriving DecidableEq, Repr

/-- Family 0: CLS and RET by the full word, every other word SYS (R97). -/
def decodeFamily0 (op : Word) : Decoded :=
  if fieldNNN op = 0x0E0 then .instr .cls
  else if fieldNNN op = 0x0EE then .instr .ret
  else .instr (.sys (fieldNNN op))

/-- Family 8, selected by `n` (R98). -/
def decodeFamily8 (op : Word) : Decoded :=
  if fieldN op = 0x0 then .instr (.ldReg (fieldX op) (fieldY op))
  else if fieldN op = 0x1 then .instr (.orReg (fieldX op) (fieldY op))
  else if fieldN op = 0x2 then .instr (.andReg (fieldX op) (fieldY op))
  else if fieldN op = 0x3 then .instr (.xorReg (fieldX op) (fieldY op))
  else if fieldN op = 0x4 then .instr (.addReg (fieldX op) (fieldY op))
  else if fieldN op = 0x5 then .instr (.subReg (fieldX op) (fieldY op))
  else if fieldN op = 0x6 then .instr (.shr (fieldX op) (fieldY op))
  else if fieldN op = 0x7 then .instr (.subnReg (fieldX op) (fieldY op))
  else if fieldN op = 0xE then .instr (.shl (fieldX op) (fieldY op))
  else .unknown op

/-- Family E, selected by `nn` (R99). -/
def decodeFamilyE (op : Word) : Decoded :=
  if fieldNN op = 0x9E then .instr (.skp (fieldX op))
  else if fieldNN op = 0xA1 then .instr (.sknp (fieldX op))
  else .unknown op

/-- Family F, selected by `nn` (R100). -/
def decodeFamilyF (op : Word) : Decoded :=
  if fieldNN op = 0x07 then .instr (.ldVxDt (fieldX op))
  else if fieldNN op = 0x0A then .instr (.ldVxK (fieldX op))
  else if fieldNN op = 0x15 then .instr (.ldDtVx (fieldX op))
  else if fieldNN op = 0x18 then .instr (.ldStVx (fieldX op))
  else if fieldNN op = 0x1E then .instr (.addI (fieldX op))
  else if fieldNN op = 0x29 then .instr (.ldF (fieldX op))
  else if fieldNN op = 0x33 then .instr (.ldB (fieldX op))
  else if fieldNN op = 0x55 then .instr (.storeRegs (fieldX op))
  else if fieldNN op = 0x65 then .instr (.loadRegs (fieldX op))
  else .unknown op

/-- `Decode(op)` (R95): dispatch on `c`, then within families 0, 8, E and F. The last arm is family F,
the only value of `c` left. -/
def decodeWord (op : Word) : Decoded :=
  match (fieldC op).toNat with
  | 0x0 => decodeFamily0 op
  | 0x1 => .instr (.jp (fieldNNN op))
  | 0x2 => .instr (.call (fieldNNN op))
  | 0x3 => .instr (.seImm (fieldX op) (fieldNN op))
  | 0x4 => .instr (.sneImm (fieldX op) (fieldNN op))
  | 0x5 => .instr (.seReg (fieldX op) (fieldY op) (fieldN op))
  | 0x6 => .instr (.ldImm (fieldX op) (fieldNN op))
  | 0x7 => .instr (.addImm (fieldX op) (fieldNN op))
  | 0x8 => decodeFamily8 op
  | 0x9 => .instr (.sneReg (fieldX op) (fieldY op) (fieldN op))
  | 0xA => .instr (.ldI (fieldNNN op))
  | 0xB => .instr (.jpV0 (fieldNNN op))
  | 0xC => .instr (.rnd (fieldX op) (fieldNN op))
  | 0xD => .instr (.drw (fieldX op) (fieldY op) (fieldN op))
  | 0xE => decodeFamilyE op
  | _ => decodeFamilyF op

/-- The instruction word two consecutive bytes hold, the first in the high half (R64, R90). -/
def wordOfBytes (a b : Byte) : Word := a ++ b

/-- The bytes of an instruction word as memory holds them (R64). -/
def bytesOfWord (op : Word) : List Byte := [op.extractLsb' 8 8, op.extractLsb' 0 8]

/-- The decoder on bytes: what the first two select; `none` where there are not two (R90). -/
def decode : List Byte → Option Decoded
  | a :: b :: _ => some (decodeWord (wordOfBytes a b))
  | _ => none

/-- A word of the shape `cnnn`. -/
def packNNN (c : Nibble) (nnn : Addr12) : Word := c ++ nnn

/-- A word of the shape `cxnn`. -/
def packXNN (c : Nibble) (x : Reg) (nn : Byte) : Word := c ++ nibbleOfReg x ++ nn

/-- A word of the shape `cxyn`. -/
def packXYN (c : Nibble) (x y : Reg) (n : Nibble) : Word := c ++ nibbleOfReg x ++ nibbleOfReg y ++ n

/-- The word of an instruction, by the patterns of the opcode map (R101). -/
def encode : Instr → Word
  | .cls => 0x00E0
  | .ret => 0x00EE
  | .sys nnn => packNNN 0x0 nnn
  | .jp nnn => packNNN 0x1 nnn
  | .call nnn => packNNN 0x2 nnn
  | .seImm x nn => packXNN 0x3 x nn
  | .sneImm x nn => packXNN 0x4 x nn
  | .seReg x y n => packXYN 0x5 x y n
  | .ldImm x nn => packXNN 0x6 x nn
  | .addImm x nn => packXNN 0x7 x nn
  | .ldReg x y => packXYN 0x8 x y 0x0
  | .orReg x y => packXYN 0x8 x y 0x1
  | .andReg x y => packXYN 0x8 x y 0x2
  | .xorReg x y => packXYN 0x8 x y 0x3
  | .addReg x y => packXYN 0x8 x y 0x4
  | .subReg x y => packXYN 0x8 x y 0x5
  | .shr x y => packXYN 0x8 x y 0x6
  | .subnReg x y => packXYN 0x8 x y 0x7
  | .shl x y => packXYN 0x8 x y 0xE
  | .sneReg x y n => packXYN 0x9 x y n
  | .ldI nnn => packNNN 0xA nnn
  | .jpV0 nnn => packNNN 0xB nnn
  | .rnd x nn => packXNN 0xC x nn
  | .drw x y n => packXYN 0xD x y n
  | .skp x => packXNN 0xE x 0x9E
  | .sknp x => packXNN 0xE x 0xA1
  | .ldVxDt x => packXNN 0xF x 0x07
  | .ldVxK x => packXNN 0xF x 0x0A
  | .ldDtVx x => packXNN 0xF x 0x15
  | .ldStVx x => packXNN 0xF x 0x18
  | .addI x => packXNN 0xF x 0x1E
  | .ldF x => packXNN 0xF x 0x29
  | .ldB x => packXNN 0xF x 0x33
  | .storeRegs x => packXNN 0xF x 0x55
  | .loadRegs x => packXNN 0xF x 0x65

/-- The decoder on an instruction whose bits are `w`, numbered as spec/opcode_table.json numbers them:
its one 16-bit word, stored high byte first (R64), given to `decode`. -/
def decodeTableWord (nbits w : Nat) : Option Instr :=
  match decode (bytesOfWord (BitVec.ofNat 16 (w % 2 ^ nbits))) with
  | some (.instr i) => some i
  | _ => none

/-- A row of spec/opcode_table.json: its mnemonic, and the bits `mask` selects and what they must be. -/
structure OpcodeRow where
  mnemonic : String
  pattern : Word
  mask : Word
  deriving DecidableEq, Repr

/-- The row of spec/opcode_table.json that each constructor stands for, as the table has it. -/
def opcodeRow : Instr → OpcodeRow
  | .cls => ⟨"CLS", 0x00E0, 0xFFFF⟩
  | .ret => ⟨"RET", 0x00EE, 0xFFFF⟩
  | .sys _ => ⟨"SYS_nnn", 0x0000, 0xF000⟩
  | .jp _ => ⟨"JP_nnn", 0x1000, 0xF000⟩
  | .call _ => ⟨"CALL_nnn", 0x2000, 0xF000⟩
  | .seImm _ _ => ⟨"SE_Vx__nn", 0x3000, 0xF000⟩
  | .sneImm _ _ => ⟨"SNE_Vx__nn", 0x4000, 0xF000⟩
  | .seReg _ _ _ => ⟨"SE_Vx__Vy", 0x5000, 0xF000⟩
  | .ldImm _ _ => ⟨"LD_Vx__nn", 0x6000, 0xF000⟩
  | .addImm _ _ => ⟨"ADD_Vx__nn", 0x7000, 0xF000⟩
  | .ldReg _ _ => ⟨"LD_Vx__Vy", 0x8000, 0xF00F⟩
  | .orReg _ _ => ⟨"OR_Vx__Vy", 0x8001, 0xF00F⟩
  | .andReg _ _ => ⟨"AND_Vx__Vy", 0x8002, 0xF00F⟩
  | .xorReg _ _ => ⟨"XOR_Vx__Vy", 0x8003, 0xF00F⟩
  | .addReg _ _ => ⟨"ADD_Vx__Vy", 0x8004, 0xF00F⟩
  | .subReg _ _ => ⟨"SUB_Vx__Vy", 0x8005, 0xF00F⟩
  | .shr _ _ => ⟨"SHR_Vx", 0x8006, 0xF00F⟩
  | .subnReg _ _ => ⟨"SUBN_Vx__Vy", 0x8007, 0xF00F⟩
  | .shl _ _ => ⟨"SHL_Vx", 0x800E, 0xF00F⟩
  | .sneReg _ _ _ => ⟨"SNE_Vx__Vy", 0x9000, 0xF000⟩
  | .ldI _ => ⟨"LD_I__nnn", 0xA000, 0xF000⟩
  | .jpV0 _ => ⟨"JP_V0__nnn", 0xB000, 0xF000⟩
  | .rnd _ _ => ⟨"RND_Vx__nn", 0xC000, 0xF000⟩
  | .drw _ _ _ => ⟨"DRW_Vx__Vy__n", 0xD000, 0xF000⟩
  | .skp _ => ⟨"SKP_Vx", 0xE09E, 0xF0FF⟩
  | .sknp _ => ⟨"SKNP_Vx", 0xE0A1, 0xF0FF⟩
  | .ldVxDt _ => ⟨"LD_Vx__DT", 0xF007, 0xF0FF⟩
  | .ldVxK _ => ⟨"LD_Vx__K", 0xF00A, 0xF0FF⟩
  | .ldDtVx _ => ⟨"LD_DT__Vx", 0xF015, 0xF0FF⟩
  | .ldStVx _ => ⟨"LD_ST__Vx", 0xF018, 0xF0FF⟩
  | .addI _ => ⟨"ADD_I__Vx", 0xF01E, 0xF0FF⟩
  | .ldF _ => ⟨"LD_F__Vx", 0xF029, 0xF0FF⟩
  | .ldB _ => ⟨"LD_B__Vx", 0xF033, 0xF0FF⟩
  | .storeRegs _ => ⟨"LD__I___Vx", 0xF055, 0xF0FF⟩
  | .loadRegs _ => ⟨"LD_Vx___I", 0xF065, 0xF0FF⟩

end Sys2Proof
end

