-- ==== Sys2Proof/Machine/ControlFlow.lean ====
section
/-! DEFINITION. Clear, return, the legacy call, jumps, call and skips (spec/40_control_flow.md R120 to
R131), and the unknown word (spec/30_encoding.md R102). In every meaning `s.pc` is already `pc_next`
(R96). -/

namespace Sys2Proof.Machine

/-- `ClearFB()` (R199). -/
def State.clearFb (s : State) : State := { s with fb := Framebuffer.blank }

/-- CLS (R120). -/
def execCls (s : State) : Result := .next (s.clearFb.emit .frameCleared)

/-- RET (R121): `pc <- Pop()`, STACK_UNDERFLOW on an empty stack (R27). -/
def execRet (s : State) : Result :=
  match s.stack with
  | [] => raise .stackUnderflow 0 (encode .ret) s
  | a :: rest => .next { s with stack := rest, pc := a }

/-- SYS nnn (R122): a reported no-op. -/
def execSys (nnn : Addr12) (s : State) : Result :=
  .next (s.emit (.report .legacySys (encode (.sys nnn)) s.pcStart))

/-- `UNKNOWN(op)` (R102): a reported no-op. -/
def execUnknown (op : Word) (s : State) : Result :=
  .next (s.emit (.report .unknownOpcode op s.pcStart))

/-- JP nnn (R123). -/
def execJp (nnn : Addr12) (s : State) : Result := .next (s.setPc (addrOperand nnn))

/-- CALL nnn (R124): push `pc_next`, STACK_OVERFLOW on a full stack (R27), then jump. -/
def execCall (nnn : Addr12) (s : State) : Result :=
  if s.stackFull then raise .stackOverflow s.pc (encode (.call nnn)) s
  else .next ((s.push s.pc).setPc (addrOperand nnn))

/-- SE Vx, nn (R125). -/
def execSeImm (x : Reg) (nn : Byte) (s : State) : Result := .next (s.skipIf (s.reg x == nn))

/-- SNE Vx, nn (R126). -/
def execSneImm (x : Reg) (nn : Byte) (s : State) : Result := .next (s.skipIf (s.reg x != nn))

/-- SE Vx, Vy (R127). -/
def execSeReg (x y : Reg) (s : State) : Result := .next (s.skipIf (s.reg x == s.reg y))

/-- SNE Vx, Vy (R128). -/
def execSneReg (x y : Reg) (s : State) : Result := .next (s.skipIf (s.reg x != s.reg y))

/-- JP V0, nnn (R129): no wrap, no mask. -/
def execJpV0 (nnn : Addr12) (s : State) : Result :=
  .next (s.setPc (addrOperand nnn + byteOperand (s.reg regV0)))

end Sys2Proof.Machine
end

