-- ==== Sys2Proof/Machine/Index.lean ====
section
/-! DEFINITION. The index register and the random byte (spec/42_index_random.md R180 to R182). -/

namespace Sys2Proof.Machine

/-- LD I, nnn (R180). -/
def execLdI (nnn : Addr12) (s : State) : Result := .next (s.setI (addrOperand nnn))

/-- ADD I, Vx (R181): wraps at 16 bits, never masked to 12, no flag. -/
def execAddI (x : Reg) (s : State) : Result := .next (s.setI (s.i + byteOperand (s.reg x)))

/-- RND with the byte drawn: `V[x] <- r & nn` (R182). -/
def rndEffect (r : Byte) (x : Reg) (nn : Byte) (s : State) : State := s.setReg x (r &&& nn)

/-- RND Vx, nn (R182): one draw per execution. -/
def execRnd (x : Reg) (nn : Byte) (s : State) : Result :=
  .next (rndEffect s.drawRnd8.1 x nn s.drawRnd8.2)

end Sys2Proof.Machine
end

