-- ==== Sys2Proof/Machine/Input.lean ====
section
/-! DEFINITION. Skip on key, and the wait for a key (spec/44_input.md R220 to R227). -/

namespace Sys2Proof.Machine

/-- SKP Vx (R220). -/
def execSkp (x : Reg) (s : State) : Result :=
  match keyIndex s.cfg.keyIndexPolicy (s.reg x) with
  | none => raise .keyOutOfRange (byteOperand (s.reg x)) (encode (.skp x)) s
  | some k => .next (s.skipIf (s.key k))

/-- SKNP Vx (R221). -/
def execSknp (x : Reg) (s : State) : Result :=
  match keyIndex s.cfg.keyIndexPolicy (s.reg x) with
  | none => raise .keyOutOfRange (byteOperand (s.reg x)) (encode (.sknp x)) s
  | some k => .next (s.skipIf (!s.key k))

/-- LD Vx, K at its first execution (R223): the lowest pressed key, or the awaiting-key sub-state. -/
def execLdVxK (x : Reg) (s : State) : Result :=
  if s.someKey then .next (s.setReg x s.lowestKey)
  else .next { s with waiting := true, waitX := x }

/-- A STEP in the awaiting-key sub-state (R224): no fetch, no event; WAIT_X is not cleared. -/
def awaitKey (s : State) : State :=
  if s.someKey then { s.setReg s.waitX s.lowestKey with waiting := false } else s

end Sys2Proof.Machine
end

