-- ==== Sys2Proof/Machine/MemoryBlock.lean ====
section
/-! DEFINITION. Font address, decimal digits, register store and load (spec/46_memory_block.md R250 to
R255). Only LD F changes `I`. -/

namespace Sys2Proof.Machine

/-- LD F, Vx (R250): the glyph's address, glyph index × 5, memory not accessed. -/
def execLdF (x : Reg) (s : State) : Result :=
  .next (s.setI (BitVec.ofNat 16 (5 * ((s.reg x).toNat % 16))))

/-- Hundreds, tens and ones of a byte (R251). -/
def bcdDigits (v : Byte) : List Byte :=
  [BitVec.ofNat 8 (v.toNat / 100), BitVec.ofNat 8 (v.toNat / 10 % 10), BitVec.ofNat 8 (v.toNat % 10)]

/-- The digits of Vx written at `I`, `I + 1`, `I + 2` (R251, R64). -/
def writeBcd (x : Reg) (s : State) : State :=
  { s with mem := Memory.writeBytes s.cfg.font s.mem s.i.toNat (bcdDigits (s.reg x)) }

/-- LD B, Vx (R251). -/
def execLdB (x : Reg) (s : State) : Result :=
  withBytesAtI 3 (encode (.ldB x)) s (writeBcd x)

/-- V0 to V(count - 1) written at `I`, rising by register number (R253, R64). -/
def writeRegs (count : Nat) (s : State) : State :=
  { s with mem := Memory.writeBytes s.cfg.font s.mem s.i.toNat (s.v.toList.take count) }

/-- LD [I], Vx (R253). -/
def execStoreRegs (x : Reg) (s : State) : Result :=
  withBytesAtI (lastReg s.cfg.lsRange x + 1) (encode (.storeRegs x)) s
    (writeRegs (lastReg s.cfg.lsRange x + 1))

/-- The V registers after `V[k] <- MEM[I + k]` for k below `count` (R254). -/
def loadedRegs (s : State) : Nat → Vector Byte 16
  | 0 => s.v
  | k + 1 => (loadedRegs s k).setIfInBounds k (s.byteAt (s.i.toNat + k))

/-- V0 to V(count - 1) read from `I` (R254). -/
def readRegs (count : Nat) (s : State) : State := { s with v := loadedRegs s count }

/-- LD Vx, [I] (R254). -/
def execLoadRegs (x : Reg) (s : State) : Result :=
  withBytesAtI (lastReg s.cfg.lsRange x + 1) (encode (.loadRegs x)) s
    (readRegs (lastReg s.cfg.lsRange x + 1))

end Sys2Proof.Machine
end

