-- ==== Sys2Proof/Machine/Sprite.lean ====
section
/-! DEFINITION. The sprite compositor with its collision detector (spec/43_sprite_draw.md R190 to R198),
as the loops of R190. -/

namespace Sys2Proof.Machine

/-- A framebuffer being drawn on and the collision found so far (R195). -/
structure Canvas where
  fb : Framebuffer
  collision : Bool
  deriving DecidableEq, Repr

/-- One in-bounds pixel: a 1 bit inverts it, and collides where it was 1 (R194, R195). -/
def drawPixel (cv : Canvas) (row col : Nat) (bit : Bool) : Canvas :=
  if bit then
    { fb := cv.fb.setPixel row col (!cv.fb.pixel row col)
      collision := cv.collision || cv.fb.pixel row col }
  else cv

/-- The first `k` columns of one sprite row: column `x0 + c` takes bit `7 - c`, a column above 63 is
skipped (R193, R194). -/
def drawCols (cv : Canvas) (b : Byte) (row x0 : Nat) : Nat → Canvas
  | 0 => cv
  | c + 1 =>
    if x0 + c > 63 then drawCols cv b row x0 c
    else drawPixel (drawCols cv b row x0 c) row (x0 + c) (b.getLsbD (7 - c))

/-- The first `k` rows of the sprite: row r is the byte at `I + r`, drawn on screen row `y0 + r`
(R192). -/
def drawRows (s : State) (x0 y0 : Nat) : Nat → Canvas
  | 0 => { fb := s.fb, collision := false }
  | r + 1 => drawCols (drawRows s x0 y0 r) (s.byteAt (s.i.toNat + r)) (y0 + r) x0 8

/-- All of a draw but its range check: the pixels, then VF, then the one event (R195, R196). -/
def drawSprite (x0 y0 rows : Nat) (s : State) : State :=
  ({ s with fb := (drawRows s x0 y0 rows).fb }.setReg regVF
    (flagByte (drawRows s x0 y0 rows).collision)).emit
    (.frameUpdated (drawRows s x0 y0 rows).fb)

/-- DRW Vx, Vy, n (R190): only the rows on the screen are read, and all of them are checked first
(R192). -/
def execDrw (x y : Reg) (n : Nibble) (s : State) : Result :=
  withBytesAtI (spriteRows n (spriteRow s y)) (encode (.drw x y n)) s
    (drawSprite (spriteCol s x) (spriteRow s y) (spriteRows n (spriteRow s y)))

end Sys2Proof.Machine
end

