-- ==== Sys2Proof/Machine/Fetch.lean ====
section
/-! DEFINITION. The instruction fetch (spec/20_memory.md R70, R71) and the placing of a word where the next
fetch reads it. -/

namespace Sys2Proof.Machine

/-- The fault a fetch raises, range before alignment, if any (R70, R71, R274). -/
def fetchFault (s : State) : Option FaultCode :=
  if s.pc.toNat > pcFetchMax then some .fetchOutOfRange
  else if s.cfg.pcAlignCheck && s.pc.getLsbD 0 then some .fetchMisaligned
  else none

/-- The word at `pc` (R70, R64). -/
def fetchedWord (s : State) : Word := s.wordAt s.pc.toNat

/-- `pc <- pc + 2`, the fetch's advance (R70). -/
def afterFetch (s : State) : State := s.setPc (s.pc + 2)

/-- The state with the bytes of an instruction at `pc` (R64), in a mode and at a `pc` from which a STEP
fetches: not halted, not waiting, and `pc` moved to the entry point 0x200 only where a fetch from it
would fault (R41, R312). -/
def placeWord (s : State) (op : Word) : State :=
  let a : Word := if (fetchFault s).isSome then 0x200 else s.pc
  { s with
    pc := a
    halted := false
    waiting := false
    mem := Memory.writeBytes s.cfg.font s.mem a.toNat [op.extractLsb' 8 8, op.extractLsb' 0 8] }

end Sys2Proof.Machine
end

