-- ==== Sys2Proof/Machine/Step.lean ====
section
/-! DEFINITION. The STEP transaction (spec/10_state.md R41) and the host's way to place an instruction. -/

namespace Sys2Proof.Machine

/-- What a decoded word does from the state the fetch left (R41, R95, R102). -/
def execDecoded (d : Decoded) (s : State) : Host.Outcome State Fault Refusal :=
  match d with
  | .instr i => exec i s
  | .unknown op => execUnknown op s

/-- STEP (R41): nothing while halted (R273), the awaiting-key check while waiting (R224), else one fetch
and one execute. A fetch fault leaves `pc` and FAULT_OP is 0 (R272). -/
def step (s : State) : Host.Outcome State Fault Refusal :=
  if s.halted then .next s
  else if s.waiting then .next (awaitKey s)
  else match fetchFault s with
    | some code => .next (s.enterFault code s.pc 0)
    | none => execDecoded (decodeWord (fetchedWord s)) (afterFetch s)

/-- The state with the instruction whose bits are `w`, numbered as spec/opcode_table.json numbers them,
where the next step fetches. -/
def State.withFetchWord (s : State) (nbits w : Nat) : State :=
  placeWord s (BitVec.ofNat 16 (w % 2 ^ nbits))

end Sys2Proof.Machine
end

