-- ==== Sys2Proof/Machine/Transactions.lean ====
section
/-! DEFINITION. The transactions through which the driver reaches the core, and runs of any interleaving of
them (spec/10_state.md R40 to R44; spec/60_exceptions.md R273, R276; spec/70_reset_and_hazards.md R310,
R311). -/

namespace Sys2Proof.Machine

/-- One timer's decrement: toward zero, floor at 0 (R276, R28). -/
def decTimer (t : Byte) : Byte := if t.toNat > 0 then t - 1 else t

/-- TICK (R42, R276). -/
def tick (s : State) : State :=
  if s.halted then s else { s with dt := decTimer s.dt, st := decTimer s.st }

/-- KEY(k, pressed) (R43, R273). -/
def setKey (k : Key) (pressed : Bool) (s : State) : State :=
  if s.halted then s else { s with keys := s.keys.set k.val pressed }

/-- RESET(image) of an image that fits (R310, R311). The parameters are the machine's, and the output
record and the draws of `rnd8` go on: a RESET emits no event (R285) and is no draw (R182). -/
def resetWith (image : List Byte) (s : State) : State :=
  { State.reset with
    mem := Memory.writeBytes s.cfg.font [] programBase image
    events := s.events
    rndDraws := s.rndDraws
    cfg := s.cfg }

/-- The four transactions (R40). -/
inductive Transaction where
  /-- RESET(image) (R44). -/
  | reset (image : List Byte)
  /-- STEP (R41). -/
  | step
  /-- TICK (R42). -/
  | tick
  /-- KEY(k, pressed) (R43). -/
  | key (k : Key) (pressed : Bool)
  deriving DecidableEq, Repr

/-- One transaction (R40); a RESET whose image does not fit is refused (R311). -/
def transact (t : Transaction) (s : State) : Result :=
  match t with
  | .reset image =>
    if image.length ≤ maxImage then .next (resetWith image s) else .refused .imageTooLong
  | .step => step s
  | .tick => .next (tick s)
  | .key k pressed => .next (setKey k pressed s)

/-- The transactions of a driver's schedule, one after another (R40). -/
def runTransactions : List Transaction → State → Result
  | [], s => .next s
  | t :: ts, s =>
    match transact t s with
    | .next s' => runTransactions ts s'
    | .fault r => .fault r
    | .refused r => .refused r

end Sys2Proof.Machine
end

