-- ==== Sys2Proof/Machine/Ports.lean ====
section
/-! DEFINITION. The core's outputs as views of its state (spec/10_state.md R35, R46;
spec/60_exceptions.md R278), and the suggested signal-level command port (spec/10_state.md R47). -/

namespace Sys2Proof.Machine

/-- The number of a fault cause (R271). -/
def FaultCode.bits : FaultCode → Nibble
  | .noFault => 0
  | .fetchOutOfRange => 1
  | .fetchMisaligned => 2
  | .stackUnderflow => 3
  | .stackOverflow => 4
  | .memOutOfRange => 5
  | .keyOutOfRange => 6

/-- `tone` (R278). -/
def tone (s : State) : Bool := s.st != 0 && !s.halted

/-- The framebuffer read port: `FB[r][0..63]`, without side effect (R46). -/
def fbRow (s : State) (r : Fin 32) : Vector Bool 64 := s.fb[r.val]

/-- One bit of the status word. -/
def statusBit (b : Bool) : BitVec 1 := if b then 1 else 0

/-- The packed status word: bits 15..12 and 3..2 are 0, 11..8 FAULT_CODE, 7..4 WAIT_X, 1 WAITING,
0 HALTED (R35). -/
def statusWord (s : State) : Word :=
  (0 : BitVec 4) ++ s.faultCode.bits ++ nibbleOfReg s.waitX ++ (0 : BitVec 2) ++
    statusBit s.waiting ++ statusBit s.halted

/-- The commands of the suggested signal-level interface (R47). -/
inductive Command where
  /-- No command. -/
  | noCommand
  /-- RESET, with an empty image; LOAD_BYTEs supply the image. -/
  | reset
  /-- LOAD_BYTE(k, b): the byte `b` at `0x200 + k`. -/
  | loadByte (off : Addr12) (data : Byte)
  /-- STEP. -/
  | step
  /-- TICK. -/
  | tick
  /-- KEY(k, pressed). -/
  | key (k : Key) (pressed : Bool)
  deriving DecidableEq, Repr

/-- The core behind the suggested command port: its state, and whether no STEP has been taken since the
last RESET, so that a LOAD_BYTE is accepted (R47). -/
structure Port where
  core : State
  loadOpen : Bool
  deriving DecidableEq, Repr

/-- The outcome of a transaction on the core, seen at the port. -/
def onPort (loadOpen : Bool) : Result → Host.Outcome Port Fault Refusal
  | .next s => .next { core := s, loadOpen := loadOpen }
  | .fault r => .fault r
  | .refused r => .refused r

/-- LOAD_BYTE (R47): refused, that is ignored, after the first STEP since RESET or beyond 0xFFF. -/
def loadByte (off : Addr12) (data : Byte) (p : Port) : Port :=
  if p.loadOpen && decide (programBase + off.toNat ≤ 0xFFF) then
    { p with core := p.core.setByte (programBase + off.toNat) data }
  else p

/-- One command of the port (R47). -/
def command (c : Command) (p : Port) : Host.Outcome Port Fault Refusal :=
  match c with
  | .noCommand => .next p
  | .reset => onPort true (transact (.reset []) p.core)
  | .loadByte off data => .next (loadByte off data p)
  | .step => onPort false (transact .step p.core)
  | .tick => onPort p.loadOpen (transact .tick p.core)
  | .key k pressed => onPort p.loadOpen (transact (.key k pressed) p.core)

/-- The commands of a schedule at the port, one after another. -/
def runCommands : List Command → Port → Host.Outcome Port Fault Refusal
  | [], p => .next p
  | c :: cs, p =>
    match command c p with
    | .next p' => runCommands cs p'
    | .fault r => .fault r
    | .refused r => .refused r

/-- The outputs of the suggested interface (R47), but for the framebuffer read port (`fbRow`): `tone_o`,
the event strobes with the report's `ev_kind`, `ev_op` and `ev_addr`, and the status words. -/
structure Outputs where
  tone : Bool
  evClear : Bool
  evUpdate : Bool
  evReport : Option (ReportKind × Word × Word)
  status : Word
  faultPc : Word
  faultAddr : Word
  faultOp : Word
  deriving DecidableEq, Repr

/-- The outputs after a command took the core from `before` to `after`: the strobes are the event the
command appended to the stream, if any. -/
def outputs (before after : State) : Outputs :=
  let e := after.events[before.events.length]?
  { tone := Sys2Proof.Machine.tone after
    evClear := e == some .frameCleared
    evUpdate := match e with | some (.frameUpdated _) => true | _ => false
    evReport := match e with | some (.report kind op addr) => some (kind, op, addr) | _ => none
    status := statusWord after
    faultPc := after.faultPc
    faultAddr := after.faultAddr
    faultOp := after.faultOp }

/-- The requests an implementation may accept in one cycle (R47). DESIGN CHOICE (log 14): a LOAD_BYTE is
never one of several requests of a cycle, since R47 and D28 order RESET, KEY, TICK and STEP alone; it is
taken as a cycle's only command, by `command`. -/
structure Requests where
  reset : Bool
  key : Option (Key × Bool)
  tick : Bool
  step : Bool
  deriving DecidableEq, Repr

/-- The order in which one cycle's requests are performed: RESET, KEY, TICK, STEP, and RESET discards the
others (R47). -/
def cycleCommands (q : Requests) : List Command :=
  if q.reset then [.reset]
  else (match q.key with | some (k, pressed) => [.key k pressed] | none => []) ++
    (if q.tick then [.tick] else []) ++ (if q.step then [.step] else [])

/-- One cycle of an implementation that accepts several requests (R47). -/
def cycle (q : Requests) (p : Port) : Host.Outcome Port Fault Refusal :=
  runCommands (cycleCommands q) p

end Sys2Proof.Machine
end

