-- ==== Sys2Proof/Safety.lean ====
section
/-! DEFINITION. The conditions the spec defines on a state (spec/70_reset_and_hazards.md R326), the
reachable states, the invariant of the core, and the frames in which statements say what an instruction
leaves unchanged. -/

namespace Sys2Proof.Machine

/-- Faulted (R326): the run is aborted. -/
def State.faulted (s : State) : Bool := s.halted

/-- Waiting (R326). -/
def State.isWaiting (s : State) : Bool := s.waiting

/-- Idle at `a` (R326): neither halted nor waiting, at a jump to its own address. -/
def State.idleAt (s : State) (a : Addr12) : Prop :=
  s.halted = false ∧ s.waiting = false ∧ s.pc = addrOperand a ∧ a.toNat ≤ 0xFFE ∧
    s.wordAt a.toNat = 0x1000 ||| addrOperand a

/-- Running (R326): any other state. -/
def State.running (s : State) : Prop :=
  s.faulted = false ∧ s.isWaiting = false ∧ ∀ a, ¬ s.idleAt a

/-- The states some schedule reaches: a first RESET with any parameters, then any transactions (R40,
R314). -/
inductive Reachable : State → Prop where
  /-- After the first RESET (R314). -/
  | first (cfg : Config) (image : List Byte) (fits : image.length ≤ maxImage) :
      Reachable (resetWith image { State.reset with cfg := cfg })
  /-- After one more transaction (R40). -/
  | more {s s' : State} (t : Transaction) (before : Reachable s) (h : transact t s = .next s') :
      Reachable s'

/-- What holds of every state between transactions. -/
structure Inv (s : State) : Prop where
  /-- Memory is in its canonical form. -/
  memWf : Memory.wf s.cfg.font s.mem
  /-- "The largest is 0xFFF + 0xFF = 0x10FE" (R24). -/
  pcMax : s.pc.toNat ≤ 0x10FE
  /-- A return address lies in 0x002 to 0x1000 (R121). -/
  stackRange : ∀ a ∈ s.stack, 2 ≤ a.toNat ∧ a.toNat ≤ 0x1000
  /-- `depth ≤ STACK_DEPTH` (R27). -/
  stackDepth : ∀ d, s.cfg.stackDepth = some d → s.stack.length ≤ d
  /-- The core is halted exactly when a fault is recorded (R35). -/
  haltedCode : s.halted = true ↔ s.faultCode ≠ .noFault
  /-- A halted core keeps `pc` at the faulting instruction (R272). -/
  haltedPc : s.halted = true → s.pc = s.faultPc
  /-- No fault arises while waiting (R227), and nothing waits once halted. -/
  haltedNotWaiting : s.halted = true → s.waiting = false
  /-- Before a fault its registers hold 0 (R35, R36). -/
  noFaultZero : s.halted = false → s.faultPc = 0 ∧ s.faultAddr = 0 ∧ s.faultOp = 0

/-- A STEP from `s` fetches and executes: not halted, not waiting, `pc` in range and, under
PC_ALIGN_CHECK, even (R41, R70, R71). -/
def State.fetches (s : State) : Prop :=
  s.halted = false ∧ s.waiting = false ∧ s.pc.toNat ≤ 0xFFE ∧
    (s.cfg.pcAlignCheck = true → s.pc.toNat % 2 = 0)

/-- How many bytes at `I` an instruction accesses in state `s`: 3 digits (R251), `last + 1` registers
(R255), the sprite rows on the screen (R192), none for any other (R61). -/
def bytesAtI (s : State) : Instr → Nat
  | .ldB _ => 3
  | .storeRegs x => (if s.cfg.lsRange = .all then 15 else x.val) + 1
  | .loadRegs x => (if s.cfg.lsRange = .all then 15 else x.val) + 1
  | .drw _ y n => min n.toNat (32 - (s.reg y).toNat % 32)
  | _ => 0

/-- The first address above 0xFFF of an access at `I` that leaves memory: `I` itself, or 0x1000 (R62). -/
def firstBadAddr (s : State) : Word := if s.i.toNat > 0xFFF then s.i else 0x1000

/-- The table of fault causes (R271): the STEP from `s`, neither halted nor waiting, raises `code` with
`FAULT_ADDR = addr` and `FAULT_OP = op`. -/
inductive FaultRow (s : State) : FaultCode → Word → Word → Prop where
  /-- Code 1: `pc > 0xFFE`. -/
  | fetchOutOfRange (h : s.pc.toNat > 0xFFE) : FaultRow s .fetchOutOfRange s.pc 0
  /-- Code 2: `pc` odd, only if PC_ALIGN_CHECK; the range is checked first (R274). -/
  | fetchMisaligned (inRange : s.pc.toNat ≤ 0xFFE) (check : s.cfg.pcAlignCheck = true)
      (odd : s.pc.toNat % 2 = 1) : FaultRow s .fetchMisaligned s.pc 0
  /-- Code 3: 00EE, stack empty. -/
  | stackUnderflow (op : Word) (f : s.fetches) (word : s.wordAt s.pc.toNat = op)
      (i : decodeWord op = .instr .ret) (h : s.stack = []) : FaultRow s .stackUnderflow 0 op
  /-- Code 4: 2nnn, `depth = STACK_DEPTH`; the address that would be pushed. -/
  | stackOverflow (op : Word) (nnn : Addr12) (f : s.fetches) (word : s.wordAt s.pc.toNat = op)
      (i : decodeWord op = .instr (.call nnn)) (h : s.cfg.stackDepth = some s.stack.length) :
      FaultRow s .stackOverflow (s.pc + 2) op
  /-- Code 5: Dxyn, Fx33, Fx55, Fx65, a byte address `I + k > 0xFFF`; the first such address. -/
  | memOutOfRange (op : Word) (i : Instr) (f : s.fetches) (word : s.wordAt s.pc.toNat = op)
      (d : decodeWord op = .instr i) (k : Nat) (used : k < bytesAtI s i)
      (h : s.i.toNat + k > 0xFFF) : FaultRow s .memOutOfRange (firstBadAddr s) op
  /-- Code 6: Ex9E or ExA1, only if KEY_INDEX_POLICY = FAULT, `V[x] > 0x0F`; the value of Vx. -/
  | keyOutOfRange (op : Word) (x : Reg) (f : s.fetches) (word : s.wordAt s.pc.toNat = op)
      (i : decodeWord op = .instr (.skp x) ∨ decodeWord op = .instr (.sknp x))
      (policy : s.cfg.keyIndexPolicy = .fault) (h : (s.reg x).toNat > 0x0F) :
      FaultRow s .keyOutOfRange ((s.reg x).zeroExtend 16) op

/-- Every byte of memory reads in `t` as in `s`. -/
def SameMemory (s t : State) : Prop := ∀ a : Nat, t.byteAt a = s.byteAt a

/-- From `s` to `t` nothing changes but V registers, and of these only those in `xs`: `pc`, `I`, the
stack, the timers, the keys, the framebuffer, memory, the status registers, the event stream, the draws
and the parameters are the same. -/
def OnlyRegsChange (xs : List Reg) (s t : State) : Prop :=
  (∀ r : Reg, r ∉ xs → t.reg r = s.reg r) ∧ SameMemory s t ∧ t = { s with v := t.v }

/-- From `s` to `t` nothing changes but `pc`. -/
def OnlyPcChanges (s t : State) : Prop :=
  (∀ r : Reg, t.reg r = s.reg r) ∧ SameMemory s t ∧ t = { s with pc := t.pc }

/-- From `s` to `t` nothing changes but `I`. -/
def OnlyIChanges (s t : State) : Prop :=
  (∀ r : Reg, t.reg r = s.reg r) ∧ SameMemory s t ∧ t = { s with i := t.i }

/-- From `s` to `t` nothing changes but memory, and of it only the `n` bytes from address `a`. -/
def OnlyBytesChange (a n : Nat) (s t : State) : Prop :=
  (∀ r : Reg, t.reg r = s.reg r) ∧
    (∀ b : Nat, b < a ∨ a + n ≤ b → t.byteAt b = s.byteAt b) ∧ t = { s with mem := t.mem }

/-- `t` is `s` after the fault entry of R272, where `s` is the state before the faulting STEP: the five
status registers and the event stream as the rule says, everything else as it was. -/
def FaultEntered (code : FaultCode) (addr op : Word) (s t : State) : Prop :=
  t.halted = true ∧ t.faultCode = code ∧ t.faultPc = s.pc ∧ t.faultAddr = addr ∧ t.faultOp = op ∧
    t.events = s.events ++ [.fault code s.pc addr op] ∧
    t = { s with halted := t.halted, faultCode := t.faultCode, faultPc := t.faultPc,
                 faultAddr := t.faultAddr, faultOp := t.faultOp, events := t.events }

/-- The table of events (R285, R281): the STEP from `s` to `t` emits `e` by the rule that names it. -/
def EmittedBy (s t : State) : Event → Prop
  | .frameCleared => s.fetches ∧ decodeWord (s.wordAt s.pc.toNat) = .instr .cls
  | .frameUpdated fb =>
    s.fetches ∧ fb = t.fb ∧ ∃ x y n, decodeWord (s.wordAt s.pc.toNat) = .instr (.drw x y n)
  | .report .unknownOpcode op addr =>
    s.fetches ∧ op = s.wordAt s.pc.toNat ∧ addr = s.pc ∧ decodeWord op = .unknown op
  | .report .legacySys op addr =>
    s.fetches ∧ op = s.wordAt s.pc.toNat ∧ addr = s.pc ∧ ∃ nnn, decodeWord op = .instr (.sys nnn)
  | .fault code pc addr op =>
    s.halted = false ∧ s.waiting = false ∧ pc = s.pc ∧ FaultRow s code addr op ∧
      FaultEntered code addr op s t

end Sys2Proof.Machine
end

