-- ==== Sys2Proof/Certificates/Slice0/Obligations.lean ====
section
/-! DEFINITION. The statements for the provers, each the numbered rules of spec/ it names. In a statement
about `exec` the state is the one the fetch left, so `s.pc` is `pc_next` and `s.pc - 2` is `pc_start`
(spec/30_encoding.md R96); the words are written out from the opcode map (R101). -/

open Sys2Proof Sys2Proof.Machine

/-! ### Encoding -/

/-- The six fields of a word as numbers (R91): c, x, y, n make up the word, nn and nnn are its low 8 and
12 bits. -/
def Obligations.FieldsSplitEveryWord : Prop :=
  ∀ op : Word,
    (fieldC op).toNat = op.toNat / 4096 ∧
    (fieldX op).val = op.toNat / 256 % 16 ∧
    (fieldY op).val = op.toNat / 16 % 16 ∧
    (fieldN op).toNat = op.toNat % 16 ∧
    (fieldNN op).toNat = op.toNat % 256 ∧
    (fieldNNN op).toNat = op.toNat % 4096

/-- The source's field example (R92) and words written out from the opcode map (R101), one or more of
every family, decode to their instructions. -/
def Obligations.SpelledWordsDecode : Prop :=
  (fieldC 0xABCD = 0xA ∧ fieldX 0xABCD = 0xB ∧ fieldY 0xABCD = 0xC ∧ fieldN 0xABCD = 0xD ∧
    fieldNN 0xABCD = 0xCD ∧ fieldNNN 0xABCD = 0xBCD) ∧
  decode [0x00, 0xE0] = some (.instr .cls) ∧
  decode [0x01, 0xEE] = some (.instr (.sys 0x1EE)) ∧
  decode [0x1A, 0xBC] = some (.instr (.jp 0xABC)) ∧
  decode [0x23, 0x00] = some (.instr (.call 0x300)) ∧
  decode [0x3A, 0x42] = some (.instr (.seImm 0xA 0x42)) ∧
  decode [0x4B, 0x42] = some (.instr (.sneImm 0xB 0x42)) ∧
  decode [0x5A, 0xB7] = some (.instr (.seReg 0xA 0xB 0x7)) ∧
  decode [0x6A, 0x5C] = some (.instr (.ldImm 0xA 0x5C)) ∧
  decode [0x71, 0xFF] = some (.instr (.addImm 0x1 0xFF)) ∧
  decode [0x8A, 0xB5] = some (.instr (.subReg 0xA 0xB)) ∧
  decode [0x8A, 0xB8] = some (.unknown 0x8AB8) ∧
  decode [0x9A, 0xB1] = some (.instr (.sneReg 0xA 0xB 0x1)) ∧
  decode [0xA3, 0x00] = some (.instr (.ldI 0x300)) ∧
  decode [0xB5, 0xF0] = some (.instr (.jpV0 0x5F0)) ∧
  decode [0xC3, 0x0F] = some (.instr (.rnd 0x3 0x0F)) ∧
  decode [0xD0, 0x15] = some (.instr (.drw 0x0 0x1 0x5)) ∧
  decode [0xE5, 0x9E] = some (.instr (.skp 0x5)) ∧
  decode [0xF3, 0x0A] = some (.instr (.ldVxK 0x3)) ∧
  decode [0xFA, 0x15] = some (.instr (.ldDtVx 0xA)) ∧
  decode [0xF2, 0x55] = some (.instr (.storeRegs 0x2))

/-- Decoding the encoding of a well-formed instruction gives it back, at every value of every operand. -/
def Obligations.DecodeOfEncodeIsTheInstruction : Prop :=
  ∀ i : Instr, i.wf = true → decodeWord (encode i) = .instr i

/-- The other direction: a word that selects an instruction is that instruction's encoding, and the
instruction is well-formed, so no bit of a word is dropped and every word has one meaning. -/
def Obligations.EncodeOfDecodeIsTheWord : Prop :=
  ∀ (op : Word) (i : Instr), decodeWord op = .instr i → encode i = op ∧ i.wf = true

/-- The decoder is the opcode table: a word that selects an instruction has its row's fixed bits, and a
word with a row's fixed bits selects that row's instruction, SYS giving way to CLS and RET. -/
def Obligations.DecoderFollowsOpcodeTable : Prop :=
  (∀ (op : Word) (i : Instr), decodeWord op = .instr i →
    op &&& (opcodeRow i).mask = (opcodeRow i).pattern) ∧
  (∀ (op : Word) (j : Instr), op &&& (opcodeRow j).mask = (opcodeRow j).pattern →
    (∀ nnn, j = .sys nnn → op ≠ 0x00E0 ∧ op ≠ 0x00EE) →
    ∃ i, decodeWord op = .instr i ∧ opcodeRow i = opcodeRow j)

/-- Exactly these words are UNKNOWN (R98, R99, R100): seven values of n in family 8, all but two values
of nn in family E, all but nine in family F. -/
def Obligations.UnknownWordsAreThoseOfFamilies8EF : Prop :=
  ∀ op : Word, decodeWord op = .unknown op ↔
    (op.toNat / 4096 = 0x8 ∧ op.toNat % 16 ∈ [0x8, 0x9, 0xA, 0xB, 0xC, 0xD, 0xF]) ∨
    (op.toNat / 4096 = 0xE ∧ op.toNat % 256 ∉ [0x9E, 0xA1]) ∨
    (op.toNat / 4096 = 0xF ∧
      op.toNat % 256 ∉ [0x07, 0x0A, 0x15, 0x18, 0x1E, 0x29, 0x33, 0x55, 0x65])

/-- Family 0 (R97): CLS and RET by the full word, every other 0nnn is SYS nnn, a reported no-op. -/
def Obligations.FamilyZeroMatchesFullWord : Prop :=
  ∀ op : Word, op.toNat < 0x1000 →
    (op = 0x00E0 → decodeWord op = .instr .cls) ∧
    (op = 0x00EE → decodeWord op = .instr .ret) ∧
    (op ≠ 0x00E0 → op ≠ 0x00EE →
      decodeWord op = .instr (.sys (BitVec.ofNat 12 op.toNat)) ∧
      ∀ s : State, exec (.sys (BitVec.ofNat 12 op.toNat)) s =
        .next { s with events := s.events ++ [.report .legacySys op (s.pc - 2)] })

/-! ### Fetch and step -/

/-- A STEP whose fetch succeeds runs the instruction the two bytes at `pc`, the first in the high half,
decode to, from the state with `pc` advanced by 2 (R41, R70). -/
def Obligations.StepRunsTheDecodedInstruction : Prop :=
  ∀ (s : State) (op : Word) (i : Instr), s.fetches →
    op.toNat = 256 * (s.byteAt s.pc.toNat).toNat + (s.byteAt (s.pc.toNat + 1)).toNat →
    decodeWord op = .instr i →
    step s = exec i { s with pc := s.pc + 2 }

/-- A placed word is the one the next step runs: the host's `withFetchWord` (log 10). -/
def Obligations.PlacedWordIsRun : Prop :=
  ∀ (s : State) (w : Nat) (i : Instr), Memory.wf s.cfg.font s.mem → s.fetches → w < 0x10000 →
    decodeTableWord 16 w = some i →
    (s.withFetchWord 16 w).fetches ∧
    (∀ a, a ≠ s.pc.toNat → a ≠ s.pc.toNat + 1 → (s.withFetchWord 16 w).byteAt a = s.byteAt a) ∧
    s.withFetchWord 16 w = { s with mem := (s.withFetchWord 16 w).mem } ∧
    step (s.withFetchWord 16 w) = exec i { s.withFetchWord 16 w with pc := s.pc + 2 }

/-- The fetch (R70, R71): above 0xFFE it faults, and from an odd `pc` it faults under PC_ALIGN_CHECK,
`pc` staying; otherwise it gives the big-endian word at `pc`, which is executed with `pc` advanced by 2. -/
def Obligations.FetchReadsTheWordOrFaults : Prop :=
  ∀ s : State, s.halted = false → s.waiting = false →
    (s.pc.toNat > 0xFFE →
      ∃ t, step s = .next t ∧ FaultEntered .fetchOutOfRange s.pc 0 s t) ∧
    (s.pc.toNat ≤ 0xFFE → s.cfg.pcAlignCheck = true → s.pc.toNat % 2 = 1 →
      ∃ t, step s = .next t ∧ FaultEntered .fetchMisaligned s.pc 0 s t) ∧
    (s.pc.toNat ≤ 0xFFE → (s.cfg.pcAlignCheck = true → s.pc.toNat % 2 = 0) →
      ∃ op : Word, op.extractLsb' 8 8 = s.byteAt s.pc.toNat ∧
        op.extractLsb' 0 8 = s.byteAt (s.pc.toNat + 1) ∧
        step s = execDecoded (decodeWord op) { s with pc := s.pc + 2 })

/-- An UNKNOWN word is a reported no-op (R102). -/
def Obligations.UnknownWordIsReportedNoOp : Prop :=
  ∀ (s : State) (op : Word), s.fetches → s.wordAt s.pc.toNat = op → decodeWord op = .unknown op →
    ∃ t, step s = .next t ∧ t.pc = s.pc + 2 ∧
      t.events = s.events ++ [.report .unknownOpcode op s.pc] ∧
      (∀ r, t.reg r = s.reg r) ∧ SameMemory s t ∧
      t = { s with pc := t.pc, events := t.events }

/-- Every STEP has a successor state (R327): none ends in the host's fault or refusal, which the model
uses for no fault of the spec (log 1). -/
def Obligations.EveryStepHasASuccessor : Prop :=
  ∀ s : State, ∃ t, step s = .next t

/-! ### Control flow -/

/-- CLS (R120). -/
def Obligations.ClsClearsTheScreen : Prop :=
  decodeWord 0x00E0 = .instr .cls ∧
  ∀ s : State, ∃ t, exec .cls s = .next t ∧
    (∀ r c, r < 32 → c < 64 → t.pixel r c = false) ∧
    t.events = s.events ++ [.frameCleared] ∧
    (∀ r, t.reg r = s.reg r) ∧ SameMemory s t ∧
    t = { s with fb := t.fb, events := t.events }

/-- RET (R121): pop into `pc`; on an empty stack STACK_UNDERFLOW, the state restored and halted. -/
def Obligations.RetPopsOrUnderflows : Prop :=
  decodeWord 0x00EE = .instr .ret ∧
  (∀ (s : State) (a : Word) (rest : List Word), s.stack = a :: rest →
    ∃ t, exec .ret s = .next t ∧ t.pc = a ∧ t.stack = rest ∧
      (∀ r, t.reg r = s.reg r) ∧ SameMemory s t ∧
      t = { s with pc := t.pc, stack := t.stack }) ∧
  (∀ s : State, s.stack = [] →
    ∃ t, exec .ret s = .next t ∧
      FaultEntered .stackUnderflow 0 0x00EE { s with pc := s.pc - 2 } t)

/-- SYS nnn (R122): a reported no-op. -/
def Obligations.SysIsReportedNoOp : Prop :=
  ∀ (s : State) (nnn : Addr12), nnn ≠ 0x0E0 → nnn ≠ 0x0EE →
    decodeWord (BitVec.ofNat 16 nnn.toNat) = .instr (.sys nnn) ∧
    ∃ t, exec (.sys nnn) s = .next t ∧
      t.events = s.events ++ [.report .legacySys (BitVec.ofNat 16 nnn.toNat) (s.pc - 2)] ∧
      (∀ r, t.reg r = s.reg r) ∧ SameMemory s t ∧ t = { s with events := t.events }

/-- JP nnn (R123) and JP V0, nnn (R129), whose sum is neither masked nor wrapped. -/
def Obligations.JumpsSetPc : Prop :=
  ∀ (s : State) (nnn : Addr12),
    decodeWord (BitVec.ofNat 16 (0x1000 + nnn.toNat)) = .instr (.jp nnn) ∧
    decodeWord (BitVec.ofNat 16 (0xB000 + nnn.toNat)) = .instr (.jpV0 nnn) ∧
    (∃ t, exec (.jp nnn) s = .next t ∧ t.pc.toNat = nnn.toNat ∧ OnlyPcChanges s t) ∧
    (∃ t, exec (.jpV0 nnn) s = .next t ∧ t.pc.toNat = nnn.toNat + (s.reg 0).toNat ∧
      OnlyPcChanges s t)

/-- CALL nnn (R124): push `pc_next`, jump; on a full stack STACK_OVERFLOW with the value that would be
pushed. With `STACK_DEPTH = ∞` the stack is never full (R27). -/
def Obligations.CallPushesOrOverflows : Prop :=
  ∀ (s : State) (nnn : Addr12),
    decodeWord (BitVec.ofNat 16 (0x2000 + nnn.toNat)) = .instr (.call nnn) ∧
    (s.cfg.stackDepth ≠ some s.stack.length →
      ∃ t, exec (.call nnn) s = .next t ∧ t.stack = s.pc :: s.stack ∧ t.pc.toNat = nnn.toNat ∧
        (∀ r, t.reg r = s.reg r) ∧ SameMemory s t ∧
        t = { s with pc := t.pc, stack := t.stack }) ∧
    (s.cfg.stackDepth = some s.stack.length →
      ∃ t, exec (.call nnn) s = .next t ∧
        FaultEntered .stackOverflow s.pc (BitVec.ofNat 16 (0x2000 + nnn.toNat))
          { s with pc := s.pc - 2 } t)

/-- A RET at the entry of a subroutine undoes its CALL: `pc` is the address after the CALL, and nothing
else differs from the state before it. -/
def Obligations.RetUndoesCall : Prop :=
  ∀ (s t u : State) (nnn : Addr12), s.cfg.stackDepth ≠ some s.stack.length →
    exec (.call nnn) s = .next t →
    exec .ret { t with pc := t.pc + 2 } = .next u → u = s

/-- SE and SNE against an immediate (R125, R126). -/
def Obligations.SkipsAgainstImmediate : Prop :=
  ∀ (s : State) (x : Reg) (nn : Byte),
    decodeWord (BitVec.ofNat 16 (0x3000 + 256 * x.val + nn.toNat)) = .instr (.seImm x nn) ∧
    decodeWord (BitVec.ofNat 16 (0x4000 + 256 * x.val + nn.toNat)) = .instr (.sneImm x nn) ∧
    (∃ t, exec (.seImm x nn) s = .next t ∧
      t.pc = (if s.reg x = nn then s.pc + 2 else s.pc) ∧ OnlyPcChanges s t) ∧
    (∃ t, exec (.sneImm x nn) s = .next t ∧
      t.pc = (if s.reg x = nn then s.pc else s.pc + 2) ∧ OnlyPcChanges s t)

/-- SE and SNE between registers (R127, R128), for every value of the nibble n, which is not examined. -/
def Obligations.SkipsAgainstRegister : Prop :=
  ∀ (s : State) (x y : Reg) (n : Nibble),
    decodeWord (BitVec.ofNat 16 (0x5000 + 256 * x.val + 16 * y.val + n.toNat)) =
      .instr (.seReg x y n) ∧
    decodeWord (BitVec.ofNat 16 (0x9000 + 256 * x.val + 16 * y.val + n.toNat)) =
      .instr (.sneReg x y n) ∧
    (∃ t, exec (.seReg x y n) s = .next t ∧
      t.pc = (if s.reg x = s.reg y then s.pc + 2 else s.pc) ∧ OnlyPcChanges s t) ∧
    (∃ t, exec (.sneReg x y n) s = .next t ∧
      t.pc = (if s.reg x = s.reg y then s.pc else s.pc + 2) ∧ OnlyPcChanges s t)

/-! ### Register arithmetic -/

/-- LD Vx, nn (R150), ADD Vx, nn (R151: wraps at 8 bits, no flag), LD Vx, Vy (R152). -/
def Obligations.LoadsAndAddImmediateWriteVx : Prop :=
  ∀ (s : State) (x y : Reg) (nn : Byte),
    decodeWord (BitVec.ofNat 16 (0x6000 + 256 * x.val + nn.toNat)) = .instr (.ldImm x nn) ∧
    decodeWord (BitVec.ofNat 16 (0x7000 + 256 * x.val + nn.toNat)) = .instr (.addImm x nn) ∧
    decodeWord (BitVec.ofNat 16 (0x8000 + 256 * x.val + 16 * y.val)) = .instr (.ldReg x y) ∧
    (∃ t, exec (.ldImm x nn) s = .next t ∧ t.reg x = nn ∧ OnlyRegsChange [x] s t) ∧
    (∃ t, exec (.addImm x nn) s = .next t ∧
      (t.reg x).toNat = ((s.reg x).toNat + nn.toNat) % 256 ∧ OnlyRegsChange [x] s t) ∧
    (∃ t, exec (.ldReg x y) s = .next t ∧ t.reg x = s.reg y ∧ OnlyRegsChange [x] s t)

/-- OR, AND, XOR (R153, R154, R155), bit by bit; VF is written only as the destination. -/
def Obligations.LogicWritesVxOnly : Prop :=
  ∀ (s : State) (x y : Reg),
    decodeWord (BitVec.ofNat 16 (0x8001 + 256 * x.val + 16 * y.val)) = .instr (.orReg x y) ∧
    decodeWord (BitVec.ofNat 16 (0x8002 + 256 * x.val + 16 * y.val)) = .instr (.andReg x y) ∧
    decodeWord (BitVec.ofNat 16 (0x8003 + 256 * x.val + 16 * y.val)) = .instr (.xorReg x y) ∧
    (∃ t, exec (.orReg x y) s = .next t ∧
      (∀ k < 8, (t.reg x).getLsbD k = ((s.reg x).getLsbD k || (s.reg y).getLsbD k)) ∧
      OnlyRegsChange [x] s t) ∧
    (∃ t, exec (.andReg x y) s = .next t ∧
      (∀ k < 8, (t.reg x).getLsbD k = ((s.reg x).getLsbD k && (s.reg y).getLsbD k)) ∧
      OnlyRegsChange [x] s t) ∧
    (∃ t, exec (.xorReg x y) s = .next t ∧
      (∀ k < 8, (t.reg x).getLsbD k = ((s.reg x).getLsbD k != (s.reg y).getLsbD k)) ∧
      OnlyRegsChange [x] s t)

/-- ADD Vx, Vy (R156): the sum modulo 256 in Vx unless x is 0xF, then the carry in VF. -/
def Obligations.AddSetsCarry : Prop :=
  ∀ (s : State) (x y : Reg),
    decodeWord (BitVec.ofNat 16 (0x8004 + 256 * x.val + 16 * y.val)) = .instr (.addReg x y) ∧
    ∃ t, exec (.addReg x y) s = .next t ∧
      (x ≠ 0xF → (t.reg x).toNat = ((s.reg x).toNat + (s.reg y).toNat) % 256) ∧
      t.reg 0xF = (if (s.reg x).toNat + (s.reg y).toNat > 0xFF then 1 else 0) ∧
      OnlyRegsChange [x, 0xF] s t

/-- SUB (R157) and SUBN (R159): the wrapped difference in Vx unless x is 0xF, then 1 in VF exactly when
the minuend is strictly greater. -/
def Obligations.SubtractionsSetBorrowStatus : Prop :=
  ∀ (s : State) (x y : Reg),
    decodeWord (BitVec.ofNat 16 (0x8005 + 256 * x.val + 16 * y.val)) = .instr (.subReg x y) ∧
    decodeWord (BitVec.ofNat 16 (0x8007 + 256 * x.val + 16 * y.val)) = .instr (.subnReg x y) ∧
    (∃ t, exec (.subReg x y) s = .next t ∧
      (x ≠ 0xF → (t.reg x).toNat = ((s.reg x).toNat + 0x100 - (s.reg y).toNat) % 256) ∧
      t.reg 0xF = (if (s.reg x).toNat > (s.reg y).toNat then 1 else 0) ∧
      OnlyRegsChange [x, 0xF] s t) ∧
    (∃ t, exec (.subnReg x y) s = .next t ∧
      (x ≠ 0xF → (t.reg x).toNat = ((s.reg y).toNat + 0x100 - (s.reg x).toNat) % 256) ∧
      t.reg 0xF = (if (s.reg y).toNat > (s.reg x).toNat then 1 else 0) ∧
      OnlyRegsChange [x, 0xF] s t)

/-- SHR (R158) and SHL (R160): Vx alone is shifted by one, whatever the nibble y is, then VF is the bit
shifted out. -/
def Obligations.ShiftsMoveVxByOne : Prop :=
  ∀ (s : State) (x y : Reg),
    decodeWord (BitVec.ofNat 16 (0x8006 + 256 * x.val + 16 * y.val)) = .instr (.shr x y) ∧
    decodeWord (BitVec.ofNat 16 (0x800E + 256 * x.val + 16 * y.val)) = .instr (.shl x y) ∧
    (∃ t, exec (.shr x y) s = .next t ∧
      (x ≠ 0xF → (t.reg x).toNat = (s.reg x).toNat / 2) ∧
      (t.reg 0xF).toNat = (s.reg x).toNat % 2 ∧ OnlyRegsChange [x, 0xF] s t) ∧
    (∃ t, exec (.shl x y) s = .next t ∧
      (x ≠ 0xF → (t.reg x).toNat = 2 * (s.reg x).toNat % 256) ∧
      (t.reg 0xF).toNat = (s.reg x).toNat / 128 ∧ OnlyRegsChange [x, 0xF] s t)

/-- VF as a side effect (R21): an instruction that changes VF is one of 8xy4, 8xy5, 8xy6, 8xy7, 8xyE and
Dxyn, or loads V0 to VF from memory, or is a fault-free form that names VF as its destination x. -/
def Obligations.VfHasNoOtherWriter : Prop :=
  ∀ (s t : State) (i : Instr), exec i s = .next t → t.reg 0xF ≠ s.reg 0xF →
    (∃ x y, i = .addReg x y ∨ i = .subReg x y ∨ i = .shr x y ∨ i = .subnReg x y ∨ i = .shl x y) ∨
    (∃ x y n, i = .drw x y n) ∨ (∃ x, i = .loadRegs x ∧ (s.cfg.lsRange = .all ∨ x = 0xF)) ∨
    (∃ nn, i = .ldImm 0xF nn ∨ i = .addImm 0xF nn ∨ i = .rnd 0xF nn) ∨
    (∃ y, i = .ldReg 0xF y ∨ i = .orReg 0xF y ∨ i = .andReg 0xF y ∨ i = .xorReg 0xF y) ∨
    i = .ldVxDt 0xF ∨ i = .ldVxK 0xF

/-! ### Index register and random byte -/

/-- LD I, nnn (R180), ADD I, Vx (R181: wraps at 16 bits only, no flag), LD F, Vx (R250). -/
def Obligations.IndexInstructionsWriteI : Prop :=
  ∀ (s : State) (x : Reg) (nnn : Addr12),
    decodeWord (BitVec.ofNat 16 (0xA000 + nnn.toNat)) = .instr (.ldI nnn) ∧
    decodeWord (BitVec.ofNat 16 (0xF01E + 256 * x.val)) = .instr (.addI x) ∧
    decodeWord (BitVec.ofNat 16 (0xF029 + 256 * x.val)) = .instr (.ldF x) ∧
    (∃ t, exec (.ldI nnn) s = .next t ∧ t.i.toNat = nnn.toNat ∧ OnlyIChanges s t) ∧
    (∃ t, exec (.addI x) s = .next t ∧
      t.i.toNat = (s.i.toNat + (s.reg x).toNat) % 65536 ∧ OnlyIChanges s t) ∧
    (∃ t, exec (.ldF x) s = .next t ∧ t.i.toNat = 5 * ((s.reg x).toNat % 16) ∧ OnlyIChanges s t)

/-- RND Vx, nn: the drawn byte masked by nn in Vx, one draw per execution, and the masked-off bits are 0.
The byte is the free value `Config.rnd8`, numbered by the model's own counter of draws (log 6); nothing
is assumed of either. -/
def Obligations.RndMasksOneFreshDraw : Prop :=
  ∀ (s : State) (x : Reg) (nn : Byte),
    decodeWord (BitVec.ofNat 16 (0xC000 + 256 * x.val + nn.toNat)) = .instr (.rnd x nn) ∧
    ∃ t, exec (.rnd x nn) s = .next t ∧
      t.reg x = Config.rnd8 s.rndDraws &&& nn ∧ t.rndDraws = s.rndDraws + 1 ∧
      (∀ k < 8, nn.getLsbD k = false → (t.reg x).getLsbD k = false) ∧
      (∀ r, r ≠ x → t.reg r = s.reg r) ∧ SameMemory s t ∧
      t = { s with v := t.v, rndDraws := t.rndDraws }

/-! ### Sprite draw -/

/-- DRW Vx, Vy, n (R190): with every sprite byte on the screen inside memory, each pixel of the clipped
sprite is XORed with its bit, bit 7 leftmost, VF is 1 exactly when some pixel went from 1 to 0, and one
FrameUpdated is emitted; otherwise MEM_OUT_OF_RANGE and nothing drawn. -/
def Obligations.DrawXorsTheClippedSprite : Prop :=
  ∀ (s : State) (x y : Reg) (n : Nibble) (x0 y0 rows : Nat),
    x0 = (s.reg x).toNat % 64 → y0 = (s.reg y).toNat % 32 → rows = min n.toNat (32 - y0) →
    decodeWord (BitVec.ofNat 16 (0xD000 + 256 * x.val + 16 * y.val + n.toNat)) =
      .instr (.drw x y n) ∧
    ((∀ r < rows, s.i.toNat + r ≤ 0xFFF) →
      ∃ t, exec (.drw x y n) s = .next t ∧
        (∀ r c, r < 32 → c < 64 → t.pixel r c =
          (s.pixel r c != (decide (y0 ≤ r ∧ r < y0 + rows ∧ x0 ≤ c ∧ c < x0 + 8) &&
            (s.byteAt (s.i.toNat + (r - y0))).getLsbD (7 - (c - x0))))) ∧
        ((∃ r c, r < 32 ∧ c < 64 ∧ s.pixel r c = true ∧ t.pixel r c = false) → t.reg 0xF = 1) ∧
        ((∀ r c, r < 32 → c < 64 → s.pixel r c = true → t.pixel r c = true) → t.reg 0xF = 0) ∧
        t.events = s.events ++ [.frameUpdated t.fb] ∧
        (∀ r, r ≠ 0xF → t.reg r = s.reg r) ∧ SameMemory s t ∧
        t = { s with v := t.v, fb := t.fb, events := t.events }) ∧
    ((∃ r < rows, s.i.toNat + r > 0xFFF) →
      ∃ t, exec (.drw x y n) s = .next t ∧
        FaultEntered .memOutOfRange (if s.i.toNat > 0xFFF then s.i else 0x1000)
          (BitVec.ofNat 16 (0xD000 + 256 * x.val + 16 * y.val + n.toNat))
          { s with pc := s.pc - 2 } t)

/-- `Dxy0` (R197): no pixel changes, VF is 0, FrameUpdated is emitted, whatever `I` holds. -/
def Obligations.ZeroRowDrawOnlyClearsVf : Prop :=
  ∀ (s : State) (x y : Reg),
    ∃ t, exec (.drw x y 0) s = .next t ∧ t.reg 0xF = 0 ∧ t.fb = s.fb ∧
      t.events = s.events ++ [.frameUpdated s.fb] ∧
      (∀ r, r ≠ 0xF → t.reg r = s.reg r) ∧ SameMemory s t ∧
      t = { s with v := t.v, events := t.events }

/-- Drawing the same sprite twice at the same origin restores every pixel, and the second draw collides
exactly when the first changed a pixel from 0 to 1. -/
def Obligations.SecondDrawUndoesTheFirst : Prop :=
  ∀ (s t u : State) (x y : Reg) (n : Nibble), x ≠ 0xF → y ≠ 0xF →
    exec (.drw x y n) s = .next t → t.halted = false →
    exec (.drw x y n) t = .next u →
    (∀ r c, r < 32 → c < 64 → u.pixel r c = s.pixel r c) ∧
    (u.reg 0xF = 1 ↔ ∃ r c, r < 32 ∧ c < 64 ∧ s.pixel r c = false ∧ t.pixel r c = true)

/-- The framebuffer has no other writer (R200): a transaction that changes it is a STEP that runs CLS or
DRW, or a RESET, which leaves it all 0. -/
def Obligations.FramebufferHasNoOtherWriter : Prop :=
  (∀ (s t : State) (tr : Transaction), transact tr s = .next t → t.fb ≠ s.fb →
    (tr = .step ∧ s.fetches ∧ (decodeWord (s.wordAt s.pc.toNat) = .instr .cls ∨
      ∃ x y n, decodeWord (s.wordAt s.pc.toNat) = .instr (.drw x y n))) ∨
    ∃ image, tr = .reset image) ∧
  (∀ (s t : State) (image : List Byte), transact (.reset image) s = .next t →
    ∀ r c, r < 32 → c < 64 → t.pixel r c = false)

/-! ### Keypad -/

/-- SKP (R220) and SKNP (R221) with the key index of R222: a value above 0x0F faults under
KEY_INDEX_POLICY = FAULT and is masked under LOW_NIBBLE. -/
def Obligations.KeySkipsReadTheSnapshot : Prop :=
  ∀ (s : State) (x : Reg) (k : Key),
    decodeWord (BitVec.ofNat 16 (0xE09E + 256 * x.val)) = .instr (.skp x) ∧
    decodeWord (BitVec.ofNat 16 (0xE0A1 + 256 * x.val)) = .instr (.sknp x) ∧
    ((s.reg x).toNat ≤ 0x0F ∨ s.cfg.keyIndexPolicy = .lowNibble → k.val = (s.reg x).toNat % 16 →
      (∃ t, exec (.skp x) s = .next t ∧
        t.pc = (if s.key k = true then s.pc + 2 else s.pc) ∧ OnlyPcChanges s t) ∧
      (∃ t, exec (.sknp x) s = .next t ∧
        t.pc = (if s.key k = true then s.pc else s.pc + 2) ∧ OnlyPcChanges s t)) ∧
    ((s.reg x).toNat > 0x0F → s.cfg.keyIndexPolicy = .fault →
      (∃ t, exec (.skp x) s = .next t ∧
        FaultEntered .keyOutOfRange ((s.reg x).zeroExtend 16)
          (BitVec.ofNat 16 (0xE09E + 256 * x.val)) { s with pc := s.pc - 2 } t) ∧
      (∃ t, exec (.sknp x) s = .next t ∧
        FaultEntered .keyOutOfRange ((s.reg x).zeroExtend 16)
          (BitVec.ofNat 16 (0xE0A1 + 256 * x.val)) { s with pc := s.pc - 2 } t))

/-- LD Vx, K (R223): with a key down, its number, the lowest if several, goes to Vx; with none, the core
enters the awaiting-key sub-state with `pc` at `pc_next`. -/
def Obligations.LoadKeyStoresLowestOrWaits : Prop :=
  ∀ (s : State) (x : Reg),
    decodeWord (BitVec.ofNat 16 (0xF00A + 256 * x.val)) = .instr (.ldVxK x) ∧
    (∀ k : Key, s.key k = true → (∀ j : Key, j < k → s.key j = false) →
      ∃ t, exec (.ldVxK x) s = .next t ∧ (t.reg x).toNat = k.val ∧ OnlyRegsChange [x] s t) ∧
    ((∀ k : Key, s.key k = false) →
      ∃ t, exec (.ldVxK x) s = .next t ∧ t.waiting = true ∧ t.waitX = x ∧
        (∀ r, t.reg r = s.reg r) ∧ SameMemory s t ∧
        t = { s with waiting := t.waiting, waitX := t.waitX })

/-- A STEP while awaiting a key (R224): with a key down, the lowest goes to V[WAIT_X] and WAITING is
cleared; with none, no state changes. There is no fetch, so `pc` stays, and no event. -/
def Obligations.AwaitingStepCompletesOnAKey : Prop :=
  ∀ s : State, s.halted = false → s.waiting = true →
    (∀ k : Key, s.key k = true → (∀ j : Key, j < k → s.key j = false) →
      ∃ t, step s = .next t ∧ (t.reg s.waitX).toNat = k.val ∧ t.waiting = false ∧
        (∀ r, r ≠ s.waitX → t.reg r = s.reg r) ∧ SameMemory s t ∧
        t = { s with v := t.v, waiting := t.waiting }) ∧
    ((∀ k : Key, s.key k = false) → step s = .next s)

/-- KEY(k, pressed) (R43): the one snapshot bit, and nothing while halted. -/
def Obligations.KeyTransactionSetsOneKey : Prop :=
  ∀ (s : State) (k : Key) (pressed : Bool),
    (s.halted = true → transact (.key k pressed) s = .next s) ∧
    (s.halted = false → ∃ t, transact (.key k pressed) s = .next t ∧ t.key k = pressed ∧
      (∀ j, j ≠ k → t.key j = s.key j) ∧ t = { s with keys := t.keys })

/-! ### Timers -/

/-- LD Vx, DT (R240), LD DT, Vx (R241), LD ST, Vx (R242). -/
def Obligations.TimerInstructionsMoveTimers : Prop :=
  ∀ (s : State) (x : Reg),
    decodeWord (BitVec.ofNat 16 (0xF007 + 256 * x.val)) = .instr (.ldVxDt x) ∧
    decodeWord (BitVec.ofNat 16 (0xF015 + 256 * x.val)) = .instr (.ldDtVx x) ∧
    decodeWord (BitVec.ofNat 16 (0xF018 + 256 * x.val)) = .instr (.ldStVx x) ∧
    (∃ t, exec (.ldVxDt x) s = .next t ∧ t.reg x = s.dt ∧ OnlyRegsChange [x] s t) ∧
    (∃ t, exec (.ldDtVx x) s = .next t ∧ t.dt = s.reg x ∧ (∀ r, t.reg r = s.reg r) ∧
      SameMemory s t ∧ t = { s with dt := t.dt }) ∧
    (∃ t, exec (.ldStVx x) s = .next t ∧ t.st = s.reg x ∧ (∀ r, t.reg r = s.reg r) ∧
      SameMemory s t ∧ t = { s with st := t.st })

/-- TICK (R276): each timer goes down by one and stays at 0, nothing else changes, and nothing at all
while halted. -/
def Obligations.TickDecrementsToZero : Prop :=
  ∀ s : State,
    (s.halted = true → transact .tick s = .next s) ∧
    (s.halted = false → ∃ t, transact .tick s = .next t ∧
      t.dt.toNat = s.dt.toNat - 1 ∧ t.st.toNat = s.st.toNat - 1 ∧
      t = { s with dt := t.dt, st := t.st })

/-- `tone` (R278): high exactly while the sound timer is above 0 and the core is not halted, so a write
of ST is seen at once. -/
def Obligations.ToneFollowsSoundTimer : Prop :=
  ∀ (s t : State) (x : Reg),
    (tone s = true ↔ s.st.toNat > 0 ∧ s.halted = false) ∧
    (exec (.ldStVx x) s = .next t → s.halted = false →
      (tone t = true ↔ (s.reg x).toNat > 0))

/-! ### Memory block -/

/-- LD B, Vx (R251): hundreds, tens and ones at `I`, `I + 1`, `I + 2`; when `I + 2 > 0xFFF`,
MEM_OUT_OF_RANGE and nothing written. -/
def Obligations.BcdStoresThreeDigits : Prop :=
  ∀ (s : State) (x : Reg),
    decodeWord (BitVec.ofNat 16 (0xF033 + 256 * x.val)) = .instr (.ldB x) ∧
    (Memory.wf s.cfg.font s.mem → s.i.toNat + 2 ≤ 0xFFF →
      ∃ t, exec (.ldB x) s = .next t ∧
        (t.byteAt s.i.toNat).toNat = (s.reg x).toNat / 100 ∧
        (t.byteAt (s.i.toNat + 1)).toNat = (s.reg x).toNat / 10 % 10 ∧
        (t.byteAt (s.i.toNat + 2)).toNat = (s.reg x).toNat % 10 ∧
        OnlyBytesChange s.i.toNat 3 s t) ∧
    (s.i.toNat + 2 > 0xFFF →
      ∃ t, exec (.ldB x) s = .next t ∧
        FaultEntered .memOutOfRange (if s.i.toNat > 0xFFF then s.i else 0x1000)
          (BitVec.ofNat 16 (0xF033 + 256 * x.val)) { s with pc := s.pc - 2 } t)

/-- LD [I], Vx (R253, R255): V0 to V(last) at `I`, rising by register number, `I` unchanged; when
`I + last > 0xFFF`, MEM_OUT_OF_RANGE and nothing written. -/
def Obligations.StoreRegistersAtI : Prop :=
  ∀ (s : State) (x : Reg) (last : Nat),
    last = (if s.cfg.lsRange = .all then 0xF else x.val) →
    decodeWord (BitVec.ofNat 16 (0xF055 + 256 * x.val)) = .instr (.storeRegs x) ∧
    (Memory.wf s.cfg.font s.mem → s.i.toNat + last ≤ 0xFFF →
      ∃ t, exec (.storeRegs x) s = .next t ∧
        (∀ k : Reg, k.val ≤ last → t.byteAt (s.i.toNat + k.val) = s.reg k) ∧
        OnlyBytesChange s.i.toNat (last + 1) s t) ∧
    (s.i.toNat + last > 0xFFF →
      ∃ t, exec (.storeRegs x) s = .next t ∧
        FaultEntered .memOutOfRange (if s.i.toNat > 0xFFF then s.i else 0x1000)
          (BitVec.ofNat 16 (0xF055 + 256 * x.val)) { s with pc := s.pc - 2 } t)

/-- LD Vx, [I] (R254, R255): V0 to V(last) from `I`, `I` unchanged; when `I + last > 0xFFF`,
MEM_OUT_OF_RANGE and no register written. -/
def Obligations.LoadRegistersFromI : Prop :=
  ∀ (s : State) (x : Reg) (last : Nat),
    last = (if s.cfg.lsRange = .all then 0xF else x.val) →
    decodeWord (BitVec.ofNat 16 (0xF065 + 256 * x.val)) = .instr (.loadRegs x) ∧
    (s.i.toNat + last ≤ 0xFFF →
      ∃ t, exec (.loadRegs x) s = .next t ∧
        (∀ k : Reg, k.val ≤ last → t.reg k = s.byteAt (s.i.toNat + k.val)) ∧
        (∀ k : Reg, k.val > last → t.reg k = s.reg k) ∧ SameMemory s t ∧
        t = { s with v := t.v }) ∧
    (s.i.toNat + last > 0xFFF →
      ∃ t, exec (.loadRegs x) s = .next t ∧
        FaultEntered .memOutOfRange (if s.i.toNat > 0xFFF then s.i else 0x1000)
          (BitVec.ofNat 16 (0xF065 + 256 * x.val)) { s with pc := s.pc - 2 } t)

/-- A register store followed by a register load at the same `I` and with the same x leaves every
register as it was before the store. -/
def Obligations.LoadAfterStoreKeepsRegisters : Prop :=
  ∀ (s t u : State) (x : Reg), Memory.wf s.cfg.font s.mem →
    exec (.storeRegs x) s = .next t → t.halted = false →
    exec (.loadRegs x) t = .next u → u = t

/-! ### Memory as a whole -/

/-- A written byte is read back, and no other byte changes (R72). -/
def Obligations.WrittenByteIsReadBack : Prop :=
  ∀ (font : Font) (m : Memory) (a b : Nat) (v : Byte), Memory.wf font m → a < 4096 →
    Memory.read font (Memory.write font m a v) a = v ∧
    (b ≠ a → Memory.read font (Memory.write font m a v) b = Memory.read font m b) ∧
    Memory.wf font (Memory.write font m a v)

/-- Two memories in canonical form that read the same everywhere are the same data. -/
def Obligations.CanonicalMemoryIsItsReads : Prop :=
  ∀ (font : Font) (m m' : Memory), Memory.wf font m → Memory.wf font m' →
    (∀ a < 4096, Memory.read font m a = Memory.read font m' a) → m = m'

/-- A register store over the next instruction is what the next STEP fetches (R75), with no delay. -/
def Obligations.StoredWordIsFetchedNext : Prop :=
  ∀ (s t : State) (x : Reg) (last k : Nat) (j j' : Reg),
    Memory.wf s.cfg.font s.mem →
    last = (if s.cfg.lsRange = .all then 0xF else x.val) → s.i.toNat + last ≤ 0xFFF →
    j.val = k → j'.val = k + 1 → k + 1 ≤ last → s.pc.toNat = s.i.toNat + k →
    exec (.storeRegs x) s = .next t → t.fetches →
    step t = execDecoded (decodeWord (s.reg j ++ s.reg j')) { t with pc := t.pc + 2 }

/-! ### Faults, halting, events -/

/-- The table of fault causes (R271): each row's condition halts the core with that row's code, address
and word, and where no row's condition holds the STEP does not fault. -/
def Obligations.FaultsAreExactlyTheTable : Prop :=
  ∀ s : State, s.halted = false → s.waiting = false →
    (∀ code addr op, FaultRow s code addr op →
      ∃ t, step s = .next t ∧ FaultEntered code addr op s t) ∧
    ((∀ code addr op, ¬ FaultRow s code addr op) → ∃ t, step s = .next t ∧ t.halted = false)

/-- Faults are precise (R272): a STEP that halts the core meets a row of the table of causes, and the
state after it is the state before it but for that row's status registers and the one Fault event. -/
def Obligations.FaultsArePrecise : Prop :=
  ∀ s t : State, s.halted = false → step s = .next t → t.halted = true →
    s.waiting = false ∧
    ∃ code addr op, code ≠ .noFault ∧ FaultRow s code addr op ∧ FaultEntered code addr op s t

/-- While halted (R273), STEP, TICK and KEY change nothing, so emit nothing, and the tone is low; a RESET
leaves the halted state. -/
def Obligations.HaltedCoreIsFrozen : Prop :=
  ∀ s : State, s.halted = true →
    step s = .next s ∧ transact .tick s = .next s ∧
    (∀ k pressed, transact (.key k pressed) s = .next s) ∧ tone s = false ∧
    (∀ image t, transact (.reset image) s = .next t → t.halted = false)

/-- The event stream (R285): a STEP appends at most one event, emitted by what the table of events
says, TICK, KEY and RESET append none, and no event is ever taken back. -/
def Obligations.EachEventHasItsEmitter : Prop :=
  ∀ (s t : State) (tr : Transaction), transact tr s = .next t →
    (t.events = s.events ∨
      ∃ e, tr = .step ∧ t.events = s.events ++ [e] ∧ EmittedBy s t e)

/-- The packed status word (R35). -/
def Obligations.StatusWordPacksTheFields : Prop :=
  ∀ s : State,
    (statusWord s).getLsbD 0 = s.halted ∧ (statusWord s).getLsbD 1 = s.waiting ∧
    (statusWord s).getLsbD 2 = false ∧ (statusWord s).getLsbD 3 = false ∧
    (statusWord s).toNat / 16 % 16 = s.waitX.val ∧
    (statusWord s).toNat / 256 % 16 =
      (match s.faultCode with
        | .noFault => 0 | .fetchOutOfRange => 1 | .fetchMisaligned => 2 | .stackUnderflow => 3
        | .stackOverflow => 4 | .memOutOfRange => 5 | .keyOutOfRange => 6) ∧
    (statusWord s).toNat / 4096 = 0

/-! ### Reset, runs and the whole machine -/

/-- RESET(image) of an image that fits (R310, R36), from any state: every piece of state at its reset
value, the font and the image in memory, no event. -/
def Obligations.ResetPutsEveryStateInPlace : Prop :=
  ∀ (s : State) (image : List Byte), image.length ≤ 3584 →
    ∃ t, transact (.reset image) s = .next t ∧
      (∀ x, t.reg x = 0) ∧ t.pc = 0x200 ∧ t.i = 0x200 ∧ t.stack = [] ∧ t.dt = 0 ∧ t.st = 0 ∧
      (∀ k, t.key k = false) ∧ (∀ r c, r < 32 → c < 64 → t.pixel r c = false) ∧
      (∀ (g : Fin 16) (j : Fin 5), t.byteAt (5 * g.val + j.val) = s.cfg.font[g.val][j.val]) ∧
      (∀ a, 0x050 ≤ a → a < 0x200 → t.byteAt a = 0) ∧
      (∀ k b, image[k]? = some b → t.byteAt (0x200 + k) = b) ∧
      (∀ a, 0x200 + image.length ≤ a → a ≤ 0xFFF → t.byteAt a = 0) ∧
      t.waiting = false ∧ t.waitX = 0 ∧ t.halted = false ∧ t.faultCode = .noFault ∧
      t.faultPc = 0 ∧ t.faultAddr = 0 ∧ t.faultOp = 0 ∧ t.events = s.events

/-- RESET of an image longer than 3584 bytes is refused (R311), and only that transaction ever is. -/
def Obligations.OnlyOversizedResetIsRefused : Prop :=
  ∀ (s : State) (tr : Transaction),
    (∀ image, tr = .reset image → image.length > 3584 → transact tr s = .refused .imageTooLong) ∧
    ((∀ image, tr = .reset image → image.length ≤ 3584) → ∃ t, transact tr s = .next t)

/-- The suggested command port (R47). RESET then LOAD_BYTE(k, b) for every k implement RESET(image). RESET
opens the port for LOAD_BYTE, STEP closes it, every other command leaves it as it is. An accepted
LOAD_BYTE writes its one byte; on a closed port, or beyond 0xFFF, it changes nothing. The requests of one
cycle, whichever they are, are performed in the order KEY, TICK, STEP, and RESET discards the others.
That a LOAD_BYTE is never one of several requests of a cycle is the model's choice (log 14). -/
def Obligations.CommandPortLoadsTheImage : Prop :=
  (∀ (p : Port) (image : List Byte) (t : State), image.length ≤ 3584 →
    transact (.reset image) p.core = .next t →
    runCommands (.reset :: image.mapIdx (fun k b => .loadByte (BitVec.ofNat 12 k) b)) p =
      .next { core := t, loadOpen := true }) ∧
  (∀ (p q : Port) (c : Command), command c p = .next q →
    (c = .reset → q.loadOpen = true) ∧ (c = .step → q.loadOpen = false) ∧
    (c ≠ .reset → c ≠ .step → q.loadOpen = p.loadOpen)) ∧
  (∀ (p : Port) (off : Addr12) (b : Byte), Memory.wf p.core.cfg.font p.core.mem →
    p.loadOpen = true → 0x200 + off.toNat ≤ 0xFFF →
    ∃ q, command (.loadByte off b) p = .next q ∧ q.core.byteAt (0x200 + off.toNat) = b ∧
      OnlyBytesChange (0x200 + off.toNat) 1 p.core q.core) ∧
  (∀ (p : Port) (off : Addr12) (b : Byte), p.loadOpen = false →
    command (.loadByte off b) p = .next p) ∧
  (∀ (p : Port) (off : Addr12) (b : Byte), 0x200 + off.toNat > 0xFFF →
    command (.loadByte off b) p = .next p) ∧
  (∀ (p afterKey afterTick afterStep : Port) (q : Requests), q.reset = false →
    (q.key = none → afterKey = p) →
    (∀ k pressed, q.key = some (k, pressed) → command (.key k pressed) p = .next afterKey) →
    (q.tick = false → afterTick = afterKey) →
    (q.tick = true → command .tick afterKey = .next afterTick) →
    (q.step = false → afterStep = afterTick) →
    (q.step = true → command .step afterTick = .next afterStep) →
    cycle q p = .next afterStep) ∧
  (∀ (p : Port) (q : Requests), q.reset = true → cycle q p = command .reset p)

/-- An Idle state stays (R326): every later STEP leaves the state unchanged. -/
def Obligations.IdleStateIsUnchangedByStep : Prop :=
  ∀ (s : State) (a : Addr12), s.idleAt a → (s.cfg.pcAlignCheck = true → a.toNat % 2 = 0) →
    step s = .next s

/-- The invariant holds after RESET, for the state the run starts in. -/
def Obligations.InvariantHoldsAtReset : Prop :=
  Inv State.reset

/-- Every STEP keeps the invariant, from every state that meets it. -/
def Obligations.StepKeepsTheInvariant : Prop :=
  ∀ s t : State, Inv s → step s = .next t → Inv t

/-- Every state any schedule reaches, with any parameters and any image, meets the invariant. -/
def Obligations.ReachableStatesMeetTheInvariant : Prop :=
  ∀ s : State, Reachable s → Inv s

/-- Who writes what: a STEP that fetches changes `I`, the stack, a timer, memory or the awaiting-key
fields only when it runs an instruction whose rule writes it; it never changes the keys or the
parameters. -/
def Obligations.EachStateHasItsWriters : Prop :=
  ∀ (s t : State) (d : Decoded), s.fetches → decodeWord (s.wordAt s.pc.toNat) = d →
    step s = .next t →
    (t.i ≠ s.i → (∃ nnn, d = .instr (.ldI nnn)) ∨
      ∃ x, d = .instr (.addI x) ∨ d = .instr (.ldF x)) ∧
    (t.stack ≠ s.stack → d = .instr .ret ∨ ∃ nnn, d = .instr (.call nnn)) ∧
    (t.dt ≠ s.dt → ∃ x, d = .instr (.ldDtVx x)) ∧
    (t.st ≠ s.st → ∃ x, d = .instr (.ldStVx x)) ∧
    (t.mem ≠ s.mem → ∃ x, d = .instr (.ldB x) ∨ d = .instr (.storeRegs x)) ∧
    (t.waiting ≠ s.waiting ∨ t.waitX ≠ s.waitX → ∃ x, d = .instr (.ldVxK x)) ∧
    (t.rndDraws ≠ s.rndDraws → ∃ x nn, d = .instr (.rnd x nn)) ∧
    t.keys = s.keys ∧ t.cfg = s.cfg

/-- No instruction reads ST, a status register or the event stream: two states that differ only in these
give the same registers, `pc`, `I`, stack, delay timer, keys, framebuffer and memory. -/
def Obligations.NoInstructionReadsStatusOrSoundTimer : Prop :=
  ∀ (i : Instr) (s s' t : State),
    s' = { s with st := s'.st, halted := s'.halted, faultCode := s'.faultCode,
                  faultPc := s'.faultPc, faultAddr := s'.faultAddr, faultOp := s'.faultOp,
                  waiting := s'.waiting, waitX := s'.waitX, events := s'.events } →
    exec i s = .next t →
    ∃ t', exec i s' = .next t' ∧ t'.v = t.v ∧ t'.pc = t.pc ∧ t'.i = t.i ∧ t'.stack = t.stack ∧
      t'.dt = t.dt ∧ t'.keys = t.keys ∧ t'.fb = t.fb ∧ t'.mem = t.mem
end

