-- ==== Sys2Proof/Laws/Encoding.lean ====
section
/-! SUPPORT. The laws of the fields of an instruction word and of the packing of one (spec/30_encoding.md
R91). -/

namespace Sys2Proof

@[simp] theorem regOfNibble_nibbleOfReg (x : Reg) : regOfNibble (nibbleOfReg x) = x := by
  apply Fin.ext
  simp only [regOfNibble, nibbleOfReg, BitVec.toNat_ofNat]
  exact Nat.mod_eq_of_lt x.isLt

@[simp] theorem nibbleOfReg_regOfNibble (b : Nibble) : nibbleOfReg (regOfNibble b) = b := by
  simp [regOfNibble, nibbleOfReg]

/-- A field of bits as a number (R13, R91). -/
theorem toNat_extract (op : Word) (lo w : Nat) :
    (op.extractLsb' lo w).toNat = op.toNat / 2 ^ lo % 2 ^ w := by
  simp [BitVec.extractLsb'_toNat, Nat.shiftRight_eq_div_pow]

theorem toNat_nibbleOfReg (x : Reg) : (nibbleOfReg x).toNat = x.val := by
  simp only [nibbleOfReg, BitVec.toNat_ofNat]
  exact Nat.mod_eq_of_lt x.isLt

/-- A word of the shape `cnnn` as a number. -/
theorem toNat_packNNN (c : Nibble) (nnn : Addr12) :
    (packNNN c nnn).toNat = c.toNat * 4096 + nnn.toNat := by
  have h1 := c.isLt
  have h2 := nnn.isLt
  simp only [packNNN, BitVec.toNat_append]
  rw [← Nat.shiftLeft_add_eq_or_of_lt h2, Nat.shiftLeft_eq]

/-- A word of the shape `cxnn` as a number. -/
theorem toNat_packXNN (c : Nibble) (x : Reg) (nn : Byte) :
    (packXNN c x nn).toNat = c.toNat * 4096 + x.val * 256 + nn.toNat := by
  have h1 := c.isLt
  have h2 := nn.isLt
  have h3 := x.isLt
  have h4 := toNat_nibbleOfReg x
  simp only [packXNN, BitVec.toNat_append]
  rw [← Nat.shiftLeft_add_eq_or_of_lt h2, ← Nat.shiftLeft_add_eq_or_of_lt (nibbleOfReg x).isLt,
    Nat.shiftLeft_eq, Nat.shiftLeft_eq, h4]
  omega

/-- A word of the shape `cxyn` as a number. -/
theorem toNat_packXYN (c : Nibble) (x y : Reg) (n : Nibble) :
    (packXYN c x y n).toNat = c.toNat * 4096 + x.val * 256 + y.val * 16 + n.toNat := by
  have h1 := c.isLt
  have h2 := n.isLt
  have h4 := toNat_nibbleOfReg x
  have h5 := toNat_nibbleOfReg y
  simp only [packXYN, BitVec.toNat_append]
  rw [← Nat.shiftLeft_add_eq_or_of_lt h2, ← Nat.shiftLeft_add_eq_or_of_lt (nibbleOfReg y).isLt,
    ← Nat.shiftLeft_add_eq_or_of_lt (nibbleOfReg x).isLt,
    Nat.shiftLeft_eq, Nat.shiftLeft_eq, Nat.shiftLeft_eq, h4, h5]
  omega

theorem toNat_fieldC (op : Word) : (fieldC op).toNat = op.toNat / 4096 % 16 := toNat_extract op 12 4

theorem val_fieldX (op : Word) : (fieldX op).val = op.toNat / 256 % 16 := toNat_extract op 8 4

theorem val_fieldY (op : Word) : (fieldY op).val = op.toNat / 16 % 16 := toNat_extract op 4 4

theorem toNat_fieldN (op : Word) : (fieldN op).toNat = op.toNat % 16 := by
  rw [fieldN, toNat_extract, pow_zero, Nat.div_one]
  rfl

theorem toNat_fieldNN (op : Word) : (fieldNN op).toNat = op.toNat % 256 := by
  rw [fieldNN, toNat_extract, pow_zero, Nat.div_one]
  rfl

theorem toNat_fieldNNN (op : Word) : (fieldNNN op).toNat = op.toNat % 4096 := by
  rw [fieldNNN, toNat_extract, pow_zero, Nat.div_one]
  rfl

/-- Two bytes read as a word, then as bytes again (R64). -/
theorem bytesOfWord_wordOfBytes (a b : Byte) : bytesOfWord (wordOfBytes a b) = [a, b] := by
  have h1 := a.isLt
  have h2 := b.isLt
  have e : (wordOfBytes a b).toNat = a.toNat * 256 + b.toNat := by
    simp only [wordOfBytes, BitVec.toNat_append]
    rw [← Nat.shiftLeft_add_eq_or_of_lt h2, Nat.shiftLeft_eq]
  simp only [bytesOfWord, List.cons.injEq, and_true]
  constructor <;> apply BitVec.eq_of_toNat_eq <;> rw [toNat_extract, e] <;> omega

/-- A word's bytes read as a word again (R64). -/
theorem decode_bytesOfWord (op : Word) : decode (bytesOfWord op) = some (decodeWord op) := by
  have h := op.isLt
  have e : wordOfBytes (op.extractLsb' 8 8) (op.extractLsb' 0 8) = op := by
    apply BitVec.eq_of_toNat_eq
    simp only [wordOfBytes, BitVec.toNat_append]
    rw [← Nat.shiftLeft_add_eq_or_of_lt (BitVec.isLt _), Nat.shiftLeft_eq, toNat_extract,
      toNat_extract]
    omega
  simp only [decode, bytesOfWord, e]

/-- Words whose sixteen bits agree are equal. -/
theorem word_ext {a b : Word} (h : ∀ k : Fin 16, a.getLsbD k.val = b.getLsbD k.val) : a = b :=
  BitVec.eq_of_getLsbD_eq fun k hk => h ⟨k, hk⟩

/-- The mask 0xF000 keeps `c`. -/
theorem and_maskC (op : Word) : op &&& 0xF000 = packNNN (fieldC op) 0 := by
  refine word_ext fun k => ?_
  simp only [packNNN, fieldC, BitVec.getLsbD_and, BitVec.getLsbD_append,
    BitVec.getLsbD_extractLsb']
  fin_cases k <;> simp

/-- The mask 0xF00F keeps `c` and `n`. -/
theorem and_maskCN (op : Word) : op &&& 0xF00F = packXYN (fieldC op) 0 0 (fieldN op) := by
  refine word_ext fun k => ?_
  have e : nibbleOfReg 0 = 0#4 := rfl
  simp only [packXYN, fieldC, fieldN, e, BitVec.getLsbD_and, BitVec.getLsbD_append,
    BitVec.getLsbD_extractLsb']
  fin_cases k <;> simp

/-- The mask 0xF0FF keeps `c` and `nn`. -/
theorem and_maskCNN (op : Word) : op &&& 0xF0FF = packXNN (fieldC op) 0 (fieldNN op) := by
  refine word_ext fun k => ?_
  have e : nibbleOfReg 0 = 0#4 := rfl
  simp only [packXNN, fieldC, fieldNN, e, BitVec.getLsbD_and, BitVec.getLsbD_append,
    BitVec.getLsbD_extractLsb']
  fin_cases k <;> simp

/-- The fields of a word of the shape `cnnn`. -/
@[simp] theorem fieldC_packNNN (c : Nibble) (nnn : Addr12) : fieldC (packNNN c nnn) = c := by
  have h1 := c.isLt
  have h2 := nnn.isLt
  apply BitVec.eq_of_toNat_eq
  rw [toNat_fieldC, toNat_packNNN]
  omega

@[simp] theorem fieldNNN_packNNN (c : Nibble) (nnn : Addr12) : fieldNNN (packNNN c nnn) = nnn := by
  have h2 := nnn.isLt
  apply BitVec.eq_of_toNat_eq
  rw [toNat_fieldNNN, toNat_packNNN]
  omega

/-- The fields of a word of the shape `cxnn`. -/
@[simp] theorem fieldC_packXNN (c : Nibble) (x : Reg) (nn : Byte) : fieldC (packXNN c x nn) = c := by
  have h1 := c.isLt
  have h2 := nn.isLt
  have h3 := x.isLt
  apply BitVec.eq_of_toNat_eq
  rw [toNat_fieldC, toNat_packXNN]
  omega

@[simp] theorem fieldX_packXNN (c : Nibble) (x : Reg) (nn : Byte) : fieldX (packXNN c x nn) = x := by
  have h2 := nn.isLt
  have h3 := x.isLt
  apply Fin.ext
  rw [val_fieldX, toNat_packXNN]
  omega

@[simp] theorem fieldNN_packXNN (c : Nibble) (x : Reg) (nn : Byte) :
    fieldNN (packXNN c x nn) = nn := by
  have h2 := nn.isLt
  apply BitVec.eq_of_toNat_eq
  rw [toNat_fieldNN, toNat_packXNN]
  omega

/-- The fields of a word of the shape `cxyn`. -/
@[simp] theorem fieldC_packXYN (c : Nibble) (x y : Reg) (n : Nibble) :
    fieldC (packXYN c x y n) = c := by
  have h1 := c.isLt
  have h2 := n.isLt
  have h3 := x.isLt
  have h4 := y.isLt
  apply BitVec.eq_of_toNat_eq
  rw [toNat_fieldC, toNat_packXYN]
  omega

@[simp] theorem fieldX_packXYN (c : Nibble) (x y : Reg) (n : Nibble) :
    fieldX (packXYN c x y n) = x := by
  have h2 := n.isLt
  have h3 := x.isLt
  have h4 := y.isLt
  apply Fin.ext
  rw [val_fieldX, toNat_packXYN]
  omega

@[simp] theorem fieldY_packXYN (c : Nibble) (x y : Reg) (n : Nibble) :
    fieldY (packXYN c x y n) = y := by
  have h2 := n.isLt
  have h4 := y.isLt
  apply Fin.ext
  rw [val_fieldY, toNat_packXYN]
  omega

@[simp] theorem fieldN_packXYN (c : Nibble) (x y : Reg) (n : Nibble) :
    fieldN (packXYN c x y n) = n := by
  have h2 := n.isLt
  apply BitVec.eq_of_toNat_eq
  rw [toNat_fieldN, toNat_packXYN]
  omega

/-- A word is its fields, in each of the three shapes. -/
theorem packNNN_fields (op : Word) : packNNN (fieldC op) (fieldNNN op) = op := by
  have h := op.isLt
  apply BitVec.eq_of_toNat_eq
  rw [toNat_packNNN, toNat_fieldC, toNat_fieldNNN]
  omega

theorem packXNN_fields (op : Word) : packXNN (fieldC op) (fieldX op) (fieldNN op) = op := by
  have h := op.isLt
  apply BitVec.eq_of_toNat_eq
  rw [toNat_packXNN, toNat_fieldC, val_fieldX, toNat_fieldNN]
  omega

theorem packXYN_fields (op : Word) :
    packXYN (fieldC op) (fieldX op) (fieldY op) (fieldN op) = op := by
  have h := op.isLt
  apply BitVec.eq_of_toNat_eq
  rw [toNat_packXYN, toNat_fieldC, val_fieldX, val_fieldY, toNat_fieldN]
  omega

/-- The dispatch of the decoder on `c`, arm by arm (R95, R101). -/
theorem decodeWord_cases (op : Word) :
    (fieldC op = 0x0 ∧ decodeWord op = decodeFamily0 op) ∨
    (fieldC op = 0x1 ∧ decodeWord op = .instr (.jp (fieldNNN op))) ∨
    (fieldC op = 0x2 ∧ decodeWord op = .instr (.call (fieldNNN op))) ∨
    (fieldC op = 0x3 ∧ decodeWord op = .instr (.seImm (fieldX op) (fieldNN op))) ∨
    (fieldC op = 0x4 ∧ decodeWord op = .instr (.sneImm (fieldX op) (fieldNN op))) ∨
    (fieldC op = 0x5 ∧ decodeWord op = .instr (.seReg (fieldX op) (fieldY op) (fieldN op))) ∨
    (fieldC op = 0x6 ∧ decodeWord op = .instr (.ldImm (fieldX op) (fieldNN op))) ∨
    (fieldC op = 0x7 ∧ decodeWord op = .instr (.addImm (fieldX op) (fieldNN op))) ∨
    (fieldC op = 0x8 ∧ decodeWord op = decodeFamily8 op) ∨
    (fieldC op = 0x9 ∧ decodeWord op = .instr (.sneReg (fieldX op) (fieldY op) (fieldN op))) ∨
    (fieldC op = 0xA ∧ decodeWord op = .instr (.ldI (fieldNNN op))) ∨
    (fieldC op = 0xB ∧ decodeWord op = .instr (.jpV0 (fieldNNN op))) ∨
    (fieldC op = 0xC ∧ decodeWord op = .instr (.rnd (fieldX op) (fieldNN op))) ∨
    (fieldC op = 0xD ∧ decodeWord op = .instr (.drw (fieldX op) (fieldY op) (fieldN op))) ∨
    (fieldC op = 0xE ∧ decodeWord op = decodeFamilyE op) ∨
    (fieldC op = 0xF ∧ decodeWord op = decodeFamilyF op) := by
  have key : ∀ c : Nibble, c = 0x0 ∨ c = 0x1 ∨ c = 0x2 ∨ c = 0x3 ∨ c = 0x4 ∨ c = 0x5 ∨ c = 0x6 ∨
      c = 0x7 ∨ c = 0x8 ∨ c = 0x9 ∨ c = 0xA ∨ c = 0xB ∨ c = 0xC ∨ c = 0xD ∨ c = 0xE ∨ c = 0xF := by
    decide
  rcases key (fieldC op) with h | h | h | h | h | h | h | h | h | h | h | h | h | h | h | h <;>
    simp [decodeWord, h]

/-- A word given as a number is the encoding whose number it is. -/
theorem ofNat_eq_encode {k : Nat} {i : Instr} (h : (encode i).toNat = k) :
    BitVec.ofNat 16 k = encode i := by
  rw [← h, BitVec.ofNat_toNat, BitVec.setWidth_eq]

end Sys2Proof
end

