-- ==== Sys2Proof/Laws/State.lean ====
section
/-! SUPPORT. One lemma per field per update of the state, so that no proof unfolds a record update. -/

namespace Sys2Proof.Machine

section SetReg

variable (s : State) (x : Reg) (b : Byte)

@[simp] theorem State.setReg_v : (s.setReg x b).v = s.v.set x.val b := rfl
@[simp] theorem State.setReg_pc : (s.setReg x b).pc = s.pc := rfl
@[simp] theorem State.setReg_i : (s.setReg x b).i = s.i := rfl
@[simp] theorem State.setReg_stack : (s.setReg x b).stack = s.stack := rfl
@[simp] theorem State.setReg_dt : (s.setReg x b).dt = s.dt := rfl
@[simp] theorem State.setReg_st : (s.setReg x b).st = s.st := rfl
@[simp] theorem State.setReg_keys : (s.setReg x b).keys = s.keys := rfl
@[simp] theorem State.setReg_fb : (s.setReg x b).fb = s.fb := rfl
@[simp] theorem State.setReg_mem : (s.setReg x b).mem = s.mem := rfl
@[simp] theorem State.setReg_waiting : (s.setReg x b).waiting = s.waiting := rfl
@[simp] theorem State.setReg_waitX : (s.setReg x b).waitX = s.waitX := rfl
@[simp] theorem State.setReg_halted : (s.setReg x b).halted = s.halted := rfl
@[simp] theorem State.setReg_faultCode : (s.setReg x b).faultCode = s.faultCode := rfl
@[simp] theorem State.setReg_faultPc : (s.setReg x b).faultPc = s.faultPc := rfl
@[simp] theorem State.setReg_faultAddr : (s.setReg x b).faultAddr = s.faultAddr := rfl
@[simp] theorem State.setReg_faultOp : (s.setReg x b).faultOp = s.faultOp := rfl
@[simp] theorem State.setReg_events : (s.setReg x b).events = s.events := rfl
@[simp] theorem State.setReg_rndDraws : (s.setReg x b).rndDraws = s.rndDraws := rfl
@[simp] theorem State.setReg_cfg : (s.setReg x b).cfg = s.cfg := rfl

end SetReg

section SetPc

variable (s : State) (a : Word)

@[simp] theorem State.setPc_v : (s.setPc a).v = s.v := rfl
@[simp] theorem State.setPc_pc : (s.setPc a).pc = a := rfl
@[simp] theorem State.setPc_i : (s.setPc a).i = s.i := rfl
@[simp] theorem State.setPc_stack : (s.setPc a).stack = s.stack := rfl
@[simp] theorem State.setPc_dt : (s.setPc a).dt = s.dt := rfl
@[simp] theorem State.setPc_st : (s.setPc a).st = s.st := rfl
@[simp] theorem State.setPc_keys : (s.setPc a).keys = s.keys := rfl
@[simp] theorem State.setPc_fb : (s.setPc a).fb = s.fb := rfl
@[simp] theorem State.setPc_mem : (s.setPc a).mem = s.mem := rfl
@[simp] theorem State.setPc_waiting : (s.setPc a).waiting = s.waiting := rfl
@[simp] theorem State.setPc_waitX : (s.setPc a).waitX = s.waitX := rfl
@[simp] theorem State.setPc_halted : (s.setPc a).halted = s.halted := rfl
@[simp] theorem State.setPc_faultCode : (s.setPc a).faultCode = s.faultCode := rfl
@[simp] theorem State.setPc_faultPc : (s.setPc a).faultPc = s.faultPc := rfl
@[simp] theorem State.setPc_faultAddr : (s.setPc a).faultAddr = s.faultAddr := rfl
@[simp] theorem State.setPc_faultOp : (s.setPc a).faultOp = s.faultOp := rfl
@[simp] theorem State.setPc_events : (s.setPc a).events = s.events := rfl
@[simp] theorem State.setPc_rndDraws : (s.setPc a).rndDraws = s.rndDraws := rfl
@[simp] theorem State.setPc_cfg : (s.setPc a).cfg = s.cfg := rfl

end SetPc

section SetI

variable (s : State) (a : Word)

@[simp] theorem State.setI_v : (s.setI a).v = s.v := rfl
@[simp] theorem State.setI_pc : (s.setI a).pc = s.pc := rfl
@[simp] theorem State.setI_i : (s.setI a).i = a := rfl
@[simp] theorem State.setI_stack : (s.setI a).stack = s.stack := rfl
@[simp] theorem State.setI_dt : (s.setI a).dt = s.dt := rfl
@[simp] theorem State.setI_st : (s.setI a).st = s.st := rfl
@[simp] theorem State.setI_keys : (s.setI a).keys = s.keys := rfl
@[simp] theorem State.setI_fb : (s.setI a).fb = s.fb := rfl
@[simp] theorem State.setI_mem : (s.setI a).mem = s.mem := rfl
@[simp] theorem State.setI_waiting : (s.setI a).waiting = s.waiting := rfl
@[simp] theorem State.setI_waitX : (s.setI a).waitX = s.waitX := rfl
@[simp] theorem State.setI_halted : (s.setI a).halted = s.halted := rfl
@[simp] theorem State.setI_faultCode : (s.setI a).faultCode = s.faultCode := rfl
@[simp] theorem State.setI_faultPc : (s.setI a).faultPc = s.faultPc := rfl
@[simp] theorem State.setI_faultAddr : (s.setI a).faultAddr = s.faultAddr := rfl
@[simp] theorem State.setI_faultOp : (s.setI a).faultOp = s.faultOp := rfl
@[simp] theorem State.setI_events : (s.setI a).events = s.events := rfl
@[simp] theorem State.setI_rndDraws : (s.setI a).rndDraws = s.rndDraws := rfl
@[simp] theorem State.setI_cfg : (s.setI a).cfg = s.cfg := rfl

end SetI

section SetByte

variable (s : State) (a : Nat) (b : Byte)

@[simp] theorem State.setByte_v : (s.setByte a b).v = s.v := rfl
@[simp] theorem State.setByte_pc : (s.setByte a b).pc = s.pc := rfl
@[simp] theorem State.setByte_i : (s.setByte a b).i = s.i := rfl
@[simp] theorem State.setByte_stack : (s.setByte a b).stack = s.stack := rfl
@[simp] theorem State.setByte_dt : (s.setByte a b).dt = s.dt := rfl
@[simp] theorem State.setByte_st : (s.setByte a b).st = s.st := rfl
@[simp] theorem State.setByte_keys : (s.setByte a b).keys = s.keys := rfl
@[simp] theorem State.setByte_fb : (s.setByte a b).fb = s.fb := rfl
@[simp] theorem State.setByte_mem : (s.setByte a b).mem = Memory.write s.cfg.font s.mem a b := rfl
@[simp] theorem State.setByte_waiting : (s.setByte a b).waiting = s.waiting := rfl
@[simp] theorem State.setByte_waitX : (s.setByte a b).waitX = s.waitX := rfl
@[simp] theorem State.setByte_halted : (s.setByte a b).halted = s.halted := rfl
@[simp] theorem State.setByte_faultCode : (s.setByte a b).faultCode = s.faultCode := rfl
@[simp] theorem State.setByte_faultPc : (s.setByte a b).faultPc = s.faultPc := rfl
@[simp] theorem State.setByte_faultAddr : (s.setByte a b).faultAddr = s.faultAddr := rfl
@[simp] theorem State.setByte_faultOp : (s.setByte a b).faultOp = s.faultOp := rfl
@[simp] theorem State.setByte_events : (s.setByte a b).events = s.events := rfl
@[simp] theorem State.setByte_rndDraws : (s.setByte a b).rndDraws = s.rndDraws := rfl
@[simp] theorem State.setByte_cfg : (s.setByte a b).cfg = s.cfg := rfl

end SetByte

section Emit

variable (s : State) (e : Event)

@[simp] theorem State.emit_v : (s.emit e).v = s.v := rfl
@[simp] theorem State.emit_pc : (s.emit e).pc = s.pc := rfl
@[simp] theorem State.emit_i : (s.emit e).i = s.i := rfl
@[simp] theorem State.emit_stack : (s.emit e).stack = s.stack := rfl
@[simp] theorem State.emit_dt : (s.emit e).dt = s.dt := rfl
@[simp] theorem State.emit_st : (s.emit e).st = s.st := rfl
@[simp] theorem State.emit_keys : (s.emit e).keys = s.keys := rfl
@[simp] theorem State.emit_fb : (s.emit e).fb = s.fb := rfl
@[simp] theorem State.emit_mem : (s.emit e).mem = s.mem := rfl
@[simp] theorem State.emit_waiting : (s.emit e).waiting = s.waiting := rfl
@[simp] theorem State.emit_waitX : (s.emit e).waitX = s.waitX := rfl
@[simp] theorem State.emit_halted : (s.emit e).halted = s.halted := rfl
@[simp] theorem State.emit_faultCode : (s.emit e).faultCode = s.faultCode := rfl
@[simp] theorem State.emit_faultPc : (s.emit e).faultPc = s.faultPc := rfl
@[simp] theorem State.emit_faultAddr : (s.emit e).faultAddr = s.faultAddr := rfl
@[simp] theorem State.emit_faultOp : (s.emit e).faultOp = s.faultOp := rfl
@[simp] theorem State.emit_events : (s.emit e).events = s.events ++ [e] := rfl
@[simp] theorem State.emit_rndDraws : (s.emit e).rndDraws = s.rndDraws := rfl
@[simp] theorem State.emit_cfg : (s.emit e).cfg = s.cfg := rfl

end Emit

section Push

variable (s : State) (a : Word)

@[simp] theorem State.push_v : (s.push a).v = s.v := rfl
@[simp] theorem State.push_pc : (s.push a).pc = s.pc := rfl
@[simp] theorem State.push_i : (s.push a).i = s.i := rfl
@[simp] theorem State.push_stack : (s.push a).stack = a :: s.stack := rfl
@[simp] theorem State.push_dt : (s.push a).dt = s.dt := rfl
@[simp] theorem State.push_st : (s.push a).st = s.st := rfl
@[simp] theorem State.push_keys : (s.push a).keys = s.keys := rfl
@[simp] theorem State.push_fb : (s.push a).fb = s.fb := rfl
@[simp] theorem State.push_mem : (s.push a).mem = s.mem := rfl
@[simp] theorem State.push_waiting : (s.push a).waiting = s.waiting := rfl
@[simp] theorem State.push_waitX : (s.push a).waitX = s.waitX := rfl
@[simp] theorem State.push_halted : (s.push a).halted = s.halted := rfl
@[simp] theorem State.push_faultCode : (s.push a).faultCode = s.faultCode := rfl
@[simp] theorem State.push_faultPc : (s.push a).faultPc = s.faultPc := rfl
@[simp] theorem State.push_faultAddr : (s.push a).faultAddr = s.faultAddr := rfl
@[simp] theorem State.push_faultOp : (s.push a).faultOp = s.faultOp := rfl
@[simp] theorem State.push_events : (s.push a).events = s.events := rfl
@[simp] theorem State.push_rndDraws : (s.push a).rndDraws = s.rndDraws := rfl
@[simp] theorem State.push_cfg : (s.push a).cfg = s.cfg := rfl

end Push

section EnterFault

variable (s : State) (code : FaultCode) (addr op : Word)

@[simp] theorem State.enterFault_v : (s.enterFault code addr op).v = s.v := rfl
@[simp] theorem State.enterFault_pc : (s.enterFault code addr op).pc = s.pc := rfl
@[simp] theorem State.enterFault_i : (s.enterFault code addr op).i = s.i := rfl
@[simp] theorem State.enterFault_stack : (s.enterFault code addr op).stack = s.stack := rfl
@[simp] theorem State.enterFault_dt : (s.enterFault code addr op).dt = s.dt := rfl
@[simp] theorem State.enterFault_st : (s.enterFault code addr op).st = s.st := rfl
@[simp] theorem State.enterFault_keys : (s.enterFault code addr op).keys = s.keys := rfl
@[simp] theorem State.enterFault_fb : (s.enterFault code addr op).fb = s.fb := rfl
@[simp] theorem State.enterFault_mem : (s.enterFault code addr op).mem = s.mem := rfl
@[simp] theorem State.enterFault_waiting : (s.enterFault code addr op).waiting = s.waiting := rfl
@[simp] theorem State.enterFault_waitX : (s.enterFault code addr op).waitX = s.waitX := rfl
@[simp] theorem State.enterFault_halted : (s.enterFault code addr op).halted = true := rfl
@[simp] theorem State.enterFault_faultCode : (s.enterFault code addr op).faultCode = code := rfl
@[simp] theorem State.enterFault_faultPc : (s.enterFault code addr op).faultPc = s.pc := rfl
@[simp] theorem State.enterFault_faultAddr : (s.enterFault code addr op).faultAddr = addr := rfl
@[simp] theorem State.enterFault_faultOp : (s.enterFault code addr op).faultOp = op := rfl
@[simp] theorem State.enterFault_events : (s.enterFault code addr op).events = s.events ++ [.fault code s.pc addr op] := rfl
@[simp] theorem State.enterFault_rndDraws : (s.enterFault code addr op).rndDraws = s.rndDraws := rfl
@[simp] theorem State.enterFault_cfg : (s.enterFault code addr op).cfg = s.cfg := rfl

end EnterFault

/-- The register read after a register write. -/
@[simp] theorem State.reg_setReg (s : State) (x y : Reg) (b : Byte) :
    (s.setReg x b).reg y = if y = x then b else s.reg y := by
  simp only [State.reg, State.setReg, Vector.getElem_set, eq_comm (a := x.val), Fin.ext_iff]

/-- A register write changes the registers alone. -/
theorem State.setReg_eq (s : State) (x : Reg) (b : Byte) :
    s.setReg x b = { s with v := (s.setReg x b).v } := rfl

/-- A register read depends on the register file alone. -/
theorem State.reg_congr (s t : State) (h : t.v = s.v) (x : Reg) : t.reg x = s.reg x := by
  simp only [State.reg, h]

/-- A byte read depends on memory and the font alone. -/
theorem State.byteAt_congr {s t : State} (h : t.mem = s.mem) (hc : t.cfg = s.cfg) (a : Nat) :
    t.byteAt a = s.byteAt a := by
  simp only [State.byteAt, h, hc]

/-- Register files that read the same are the same. -/
theorem State.v_ext {s t : State} (h : ∀ x : Reg, t.reg x = s.reg x) : t.v = s.v :=
  Vector.ext fun k hk => h ⟨k, hk⟩

@[simp] theorem State.skipIf_true (s : State) : s.skipIf true = s.setPc (s.pc + 2) := rfl
@[simp] theorem State.skipIf_false (s : State) : s.skipIf false = s := rfl

/-- A skip changes `pc` alone. -/
theorem State.skipIf_eq (s : State) (c : Bool) :
    s.skipIf c = { s with pc := if c then s.pc + 2 else s.pc } := by
  cases c <;> rfl

/-- Everything `raise` can do: the fault entry of R272 from the state before the STEP. -/
theorem raise_eq (code : FaultCode) (addr op : Word) (s : State) :
    ∃ t, raise code addr op s = .next t ∧ FaultEntered code addr op { s with pc := s.pc - 2 } t :=
  ⟨_, rfl, rfl, rfl, rfl, rfl, rfl, rfl, rfl⟩

/-- The fault entry of a fetch fault (R272). -/
theorem enterFault_faultEntered (s : State) (code : FaultCode) (addr op : Word) :
    FaultEntered code addr op s (s.enterFault code addr op) :=
  ⟨rfl, rfl, rfl, rfl, rfl, rfl, rfl⟩

/-- Writing a result and its flag: VF ends as the flag (R161). -/
theorem State.reg_setRegFlag (s : State) (x y : Reg) (b : Byte) (f : Bool) :
    (s.setRegFlag x b f).reg y =
      if y = regVF then flagByte f else if y = x then b else s.reg y := by
  simp only [State.setRegFlag, State.reg_setReg]

/-- A register write is a change of registers in the sense of the frames. -/
theorem onlyRegsChange_setReg (s : State) (x : Reg) (b : Byte) : OnlyRegsChange [x] s (s.setReg x b) :=
  ⟨fun r h => by simp_all, fun _ => rfl, rfl⟩

/-- A result and a flag are a change of those two registers. -/
theorem onlyRegsChange_setRegFlag (s : State) (x : Reg) (b : Byte) (f : Bool) :
    OnlyRegsChange [x, 0xF] s (s.setRegFlag x b f) :=
  ⟨fun r h => by simp_all [State.reg_setRegFlag], fun _ => rfl, rfl⟩

/-- A write of `pc` is a change of `pc`. -/
theorem onlyPcChanges_setPc (s : State) (a : Word) : OnlyPcChanges s (s.setPc a) :=
  ⟨fun _ => rfl, fun _ => rfl, rfl⟩

/-- A skip, taken or not, is a change of `pc`. -/
theorem onlyPcChanges_skipIf (s : State) (c : Bool) : OnlyPcChanges s (s.skipIf c) := by
  cases c <;> exact ⟨fun _ => rfl, fun _ => rfl, rfl⟩

/-- A write of `I` is a change of `I`. -/
theorem onlyIChanges_setI (s : State) (a : Word) : OnlyIChanges s (s.setI a) :=
  ⟨fun _ => rfl, fun _ => rfl, rfl⟩

end Sys2Proof.Machine
end

