-- ==== Sys2Proof/Laws/Framebuffer.lean ====
section
/-! SUPPORT. The laws of the framebuffer and of the draw loops (spec/43_sprite_draw.md R190 to R195). -/

namespace Sys2Proof.Machine

/-- The blank framebuffer. -/
@[simp] theorem Framebuffer.pixel_blank (r c : Nat) : Framebuffer.blank.pixel r c = false := by
  unfold Framebuffer.pixel Framebuffer.blank
  split <;> simp

/-- A pixel read after a pixel write on the grid. -/
theorem Framebuffer.pixel_setPixel (fb : Framebuffer) {r c : Nat} (hr : r < 32) (hc : c < 64)
    (b : Bool) (r' c' : Nat) :
    (fb.setPixel r c b).pixel r' c' = if r' = r ∧ c' = c then b else fb.pixel r' c' := by
  have e : fb.setPixel r c b = fb.set r (fb[r].set c b) := dif_pos ⟨hr, hc⟩
  rw [e]
  unfold Framebuffer.pixel
  by_cases h : r' < 32 ∧ c' < 64
  · simp only [h, and_self, dif_pos]
    by_cases h1 : r = r'
    · subst h1
      by_cases h2 : c = c'
      · subst h2; simp
      · simp [h2, Ne.symm h2]
    · simp [h1, Ne.symm h1]
  · rw [dif_neg h, dif_neg h, if_neg (by rintro ⟨rfl, rfl⟩; exact h ⟨hr, hc⟩)]

/-- Framebuffers with the same pixels are the same. -/
theorem Framebuffer.ext_pixel {fb fb' : Framebuffer}
    (h : ∀ r c, r < 32 → c < 64 → fb.pixel r c = fb'.pixel r c) : fb = fb' := by
  refine Vector.ext fun r hr => Vector.ext fun c hc => ?_
  have := h r c hr hc
  simpa only [Framebuffer.pixel, hr, hc, and_self, dif_pos] using this

/-- One pixel of a draw: it is XORed with its bit, and collides where it was 1 and the bit is 1. -/
theorem drawPixel_spec (cv : Canvas) {row col : Nat} (hr : row < 32) (hc : col < 64) (bit : Bool) :
    (∀ r c, (drawPixel cv row col bit).fb.pixel r c =
      if r = row ∧ c = col then (cv.fb.pixel r c != bit) else cv.fb.pixel r c) ∧
    ((drawPixel cv row col bit).collision = true ↔
      cv.collision = true ∨ (bit = true ∧ cv.fb.pixel row col = true)) := by
  cases bit
  · refine ⟨fun r c => ?_, by simp [drawPixel]⟩
    simp only [drawPixel, Bool.false_eq_true, if_false, Bool.bne_false, ite_self]
  · refine ⟨fun r c => ?_, by simp [drawPixel]⟩
    simp only [drawPixel, if_true, Framebuffer.pixel_setPixel _ hr hc]
    split
    · next h => rw [h.1, h.2]; simp
    · rfl

/-- The first `k` columns of a sprite row (R193, R194). -/
theorem drawCols_spec (cv : Canvas) (b : Byte) {row : Nat} (hr : row < 32) (x0 k : Nat) :
    (∀ r c, c < 64 → (drawCols cv b row x0 k).fb.pixel r c =
      if r = row ∧ x0 ≤ c ∧ c < x0 + k then (cv.fb.pixel r c != b.getLsbD (7 - (c - x0)))
      else cv.fb.pixel r c) ∧
    ((drawCols cv b row x0 k).collision = true ↔
      cv.collision = true ∨ ∃ c, c < 64 ∧ x0 ≤ c ∧ c < x0 + k ∧
        b.getLsbD (7 - (c - x0)) = true ∧ cv.fb.pixel row c = true) := by
  induction k with
  | zero =>
    refine ⟨fun r c _ => by rw [if_neg (by omega)]; rfl, ?_⟩
    simp only [drawCols, iff_self_or]
    rintro ⟨c, -, h1, h2, -⟩; omega
  | succ k ih =>
    obtain ⟨ihp, ihc⟩ := ih
    simp only [drawCols]
    split
    · next hgt =>
      refine ⟨fun r c hc => ?_, ?_⟩
      · rw [ihp r c hc]; congr 1; simp only [eq_iff_iff]; constructor <;> (intro; omega)
      · rw [ihc]
        refine or_congr_right (exists_congr fun c => ?_)
        constructor
        · rintro ⟨h1, h2, h3, h4⟩; exact ⟨h1, h2, by omega, h4⟩
        · rintro ⟨h1, h2, h3, h4⟩; exact ⟨h1, h2, by omega, h4⟩
    · next hle =>
      obtain ⟨hp, hcol⟩ :=
        drawPixel_spec (drawCols cv b row x0 k) hr (col := x0 + k) (by omega) (b.getLsbD (7 - k))
      refine ⟨fun r c hc => ?_, ?_⟩
      · rw [hp, ihp r c hc]
        by_cases h1 : r = row ∧ c = x0 + k
        · have e : 7 - (c - x0) = 7 - k := by omega
          rw [if_pos h1, if_neg (by omega), if_pos (by omega), e]
        · rw [if_neg h1]; congr 1; simp only [eq_iff_iff]; constructor <;> (intro; omega)
      · rw [hcol, ihc, ihp row (x0 + k) (by omega), if_neg (by omega)]
        constructor
        · rintro ((h | ⟨c, h1, h2, h3, h4⟩) | ⟨h1, h2⟩)
          · exact .inl h
          · exact .inr ⟨c, h1, h2, by omega, h4⟩
          · refine .inr ⟨x0 + k, by omega, by omega, by omega, ?_, h2⟩
            rw [show x0 + k - x0 = k by omega]; exact h1
        · rintro (h | ⟨c, h1, h2, h3, h4, h5⟩)
          · exact .inl (.inl h)
          · by_cases h6 : c = x0 + k
            · subst h6
              rw [show x0 + k - x0 = k by omega] at h4
              exact .inr ⟨h4, h5⟩
            · exact .inl (.inr ⟨c, h1, h2, by omega, h4, h5⟩)

/-- The bit a sprite of `k` rows at `(x0, y0)`, its bytes at `I`, gives pixel `(r, c)`: 0 outside the
clipped sprite (R192, R193, R194). -/
def spriteBit (s : State) (x0 y0 k r c : Nat) : Bool :=
  decide (y0 ≤ r ∧ r < y0 + k ∧ x0 ≤ c ∧ c < x0 + 8) &&
    (s.byteAt (s.i.toNat + (r - y0))).getLsbD (7 - (c - x0))

/-- The draw loops: every pixel XORed with its sprite bit, and a collision exactly where a 1 meets a 1
(R194, R195). -/
theorem drawRows_spec (s : State) (x0 y0 k : Nat) (hk : y0 + k ≤ 32) :
    (∀ r c, c < 64 → (drawRows s x0 y0 k).fb.pixel r c =
      (s.pixel r c != spriteBit s x0 y0 k r c)) ∧
    ((drawRows s x0 y0 k).collision = true ↔
      ∃ r c, r < 32 ∧ c < 64 ∧ s.pixel r c = true ∧ spriteBit s x0 y0 k r c = true) := by
  induction k with
  | zero =>
    have h0 : ∀ r c, spriteBit s x0 y0 0 r c = false := fun r c => by
      unfold spriteBit; rw [decide_eq_false (by omega)]; rfl
    simp [drawRows, h0, State.pixel]
  | succ k ih =>
    obtain ⟨ihp, ihc⟩ := ih (by omega)
    obtain ⟨hp, hcol⟩ := drawCols_spec (drawRows s x0 y0 k) (s.byteAt (s.i.toNat + k))
      (row := y0 + k) (by omega) x0 8
    have same : ∀ r c, r ≠ y0 + k → spriteBit s x0 y0 (k + 1) r c = spriteBit s x0 y0 k r c :=
      fun r c h => by
        unfold spriteBit; congr 2; simp only [eq_iff_iff]; constructor <;> (intro; omega)
    have out : ∀ c, spriteBit s x0 y0 k (y0 + k) c = false := fun c => by
      unfold spriteBit; rw [decide_eq_false (by omega)]; rfl
    have new : ∀ c, spriteBit s x0 y0 (k + 1) (y0 + k) c =
        (decide (x0 ≤ c ∧ c < x0 + 8) && (s.byteAt (s.i.toNat + k)).getLsbD (7 - (c - x0))) :=
      fun c => by
        unfold spriteBit
        rw [show y0 + k - y0 = k by omega]
        congr 2; simp only [eq_iff_iff]; constructor <;> (intro; omega)
    refine ⟨fun r c hc => ?_, ?_⟩
    · simp only [drawRows]
      rw [hp r c hc, ihp r c hc]
      by_cases h1 : r = y0 + k
      · subst h1
        rw [out, new]
        by_cases h2 : x0 ≤ c ∧ c < x0 + 8
        · rw [if_pos ⟨rfl, h2⟩, decide_eq_true h2]; simp
        · rw [if_neg (by tauto), decide_eq_false h2]; simp
      · rw [if_neg (by tauto), same r c h1]
    · simp only [drawRows]
      rw [hcol, ihc]
      constructor
      · rintro (⟨r, c, h1, h2, h3, h4⟩ | ⟨c, h1, h2, h3, h4, h5⟩)
        · refine ⟨r, c, h1, h2, h3, ?_⟩
          by_cases h6 : r = y0 + k
          · subst h6; rw [out] at h4; cases h4
          · rw [same r c h6]; exact h4
        · rw [ihp _ _ h1, out, Bool.bne_false] at h5
          refine ⟨y0 + k, c, by omega, h1, h5, ?_⟩
          rw [new, decide_eq_true ⟨h2, h3⟩, h4]; rfl
      · rintro ⟨r, c, h1, h2, h3, h4⟩
        by_cases h6 : r = y0 + k
        · subst h6
          rw [new, Bool.and_eq_true, decide_eq_true_eq] at h4
          refine .inr ⟨c, h2, h4.1.1, h4.1.2, h4.2, ?_⟩
          rw [ihp _ _ h2, out, Bool.bne_false]; exact h3
        · exact .inl ⟨r, c, h1, h2, h3, by rw [← same r c h6]; exact h4⟩

end Sys2Proof.Machine
end

