-- ==== Sys2Proof/Laws/Memory.lean ====
section
/-! SUPPORT. The laws of memory: what a read gives after a write, that every operation keeps the canonical
form, what a range check answers (spec/20_memory.md R62, R72). -/

namespace Sys2Proof.Machine

variable (font : Font)

/-- Reading below every listed address gives the reset contents. -/
theorem Memory.read_of_forall_lt {m : Memory} {a : Nat} (h : ∀ p ∈ m, a < p.1) :
    Memory.read font m a = resetByte font a := by
  induction m with
  | nil => rfl
  | cons p m ih =>
    have hp := h p (by simp)
    have : a ≠ p.1 := by omega
    simp only [Memory.read, this, if_false]
    exact ih fun q hq => h q (by simp [hq])

/-- A put cell reads as its byte; every other address as before. -/
theorem Memory.read_putCell {m : Memory} {a : Nat} (h : ∀ p ∈ m, a < p.1) (b : Byte) (c : Nat) :
    Memory.read font (Memory.putCell font a b m) c =
      if c = a then b else Memory.read font m c := by
  unfold Memory.putCell
  split
  · split
    · next hb hc => subst hc hb; exact Memory.read_of_forall_lt font h
    · rfl
  · simp only [Memory.read]

/-- READ AFTER WRITE: the written address gives the written byte, every other address what it gave
before. -/
theorem Memory.read_write {m : Memory} (h : m.Pairwise (fun p q => p.1 < q.1)) (a : Nat) (b : Byte)
    (c : Nat) :
    Memory.read font (Memory.write font m a b) c = if c = a then b else Memory.read font m c := by
  induction m with
  | nil => exact Memory.read_putCell font (by simp) b c
  | cons p m ih =>
    obtain ⟨hp, hm⟩ := List.pairwise_cons.mp h
    simp only [Memory.write]
    split
    · next hlt =>
      exact Memory.read_putCell font
        (fun q hq => by rcases List.mem_cons.mp hq with rfl | hq; exacts [hlt, hlt.trans (hp q hq)]) b c
    · split
      · next _ heq =>
        rw [Memory.read_putCell font (fun q hq => heq ▸ hp q hq)]
        simp only [Memory.read, ← heq]
        split <;> rfl
      · next hne =>
        simp only [Memory.read, ih hm]
        split
        · next hc => rw [if_neg (by omega)]
        · rfl

/-- A write lists no address but the written one and those listed before. -/
theorem Memory.mem_write {m : Memory} {a : Nat} {b : Byte} {p : Host.Cell}
    (h : p ∈ Memory.write font m a b) : p ∈ m ∨ p = (a, b) ∧ b ≠ resetByte font a := by
  induction m with
  | nil =>
    simp only [Memory.write, Memory.putCell] at h
    split at h <;> simp_all
  | cons q m ih =>
    simp only [Memory.write, Memory.putCell] at h
    split at h
    · split at h
      · exact .inl h
      · rcases List.mem_cons.mp h with rfl | h
        · exact .inr ⟨rfl, ‹_›⟩
        · exact .inl h
    · split at h
      · split at h
        · exact .inl (by simp [h])
        · rcases List.mem_cons.mp h with rfl | h
          · exact .inr ⟨rfl, ‹_›⟩
          · exact .inl (by simp [h])
      · rcases List.mem_cons.mp h with rfl | h
        · exact .inl (by simp)
        · exact (ih h).imp (by simp_all) id

/-- A write inside memory keeps the canonical form. -/
theorem Memory.wf_write {m : Memory} (h : Memory.wf font m) {a : Nat} (ha : a < memSize) (b : Byte) :
    Memory.wf font (Memory.write font m a b) := by
  refine ⟨?_, fun p hp => ?_⟩
  · obtain ⟨hs, -⟩ := h
    induction m with
    | nil => simp only [Memory.write, Memory.putCell]; split <;> simp
    | cons q m ih =>
      obtain ⟨hq, hm⟩ := List.pairwise_cons.mp hs
      simp only [Memory.write, Memory.putCell]
      split
      · split
        · exact hs
        · refine List.pairwise_cons.mpr ⟨fun p hp => ?_, hs⟩
          rcases List.mem_cons.mp hp with rfl | hp
          · assumption
          · have := hq p hp; simp only; omega
      · split
        · next _ heq =>
          split
          · exact hm
          · exact List.pairwise_cons.mpr ⟨fun p hp => by have := hq p hp; simp only; omega, hm⟩
        · refine List.pairwise_cons.mpr ⟨fun p hp => ?_, ih hm⟩
          rcases Memory.mem_write font hp with hp | ⟨rfl, -⟩
          · exact hq p hp
          · simp only; omega
  · rcases Memory.mem_write font hp with hp | ⟨rfl, hb⟩
    · exact h.2 p hp
    · exact ⟨ha, hb⟩

/-- The empty memory, every byte at its reset contents, is canonical. -/
theorem Memory.wf_nil : Memory.wf font [] := by simp [Memory.wf]

/-- Writing bytes in address order inside memory keeps the canonical form. -/
theorem Memory.wf_writeBytes {m : Memory} (h : Memory.wf font m) {a : Nat} {bs : List Byte}
    (ha : a + bs.length ≤ memSize) : Memory.wf font (Memory.writeBytes font m a bs) := by
  induction bs generalizing m a with
  | nil => exact h
  | cons b bs ih =>
    simp only [List.length_cons] at ha
    exact ih (Memory.wf_write font h (by omega) b) (by omega)

/-- Writing a byte keeps the addresses rising, whatever the address. -/
theorem Memory.pairwise_write {m : Memory} (h : m.Pairwise (fun p q => p.1 < q.1)) (a : Nat)
    (b : Byte) : (Memory.write font m a b).Pairwise (fun p q => p.1 < q.1) := by
  induction m with
  | nil => simp only [Memory.write, Memory.putCell]; split <;> simp
  | cons q m ih =>
    obtain ⟨hq, hm⟩ := List.pairwise_cons.mp h
    simp only [Memory.write, Memory.putCell]
    split
    · split
      · exact h
      · refine List.pairwise_cons.mpr ⟨fun p hp => ?_, h⟩
        rcases List.mem_cons.mp hp with rfl | hp
        · assumption
        · have := hq p hp; simp only; omega
    · split
      · split
        · exact hm
        · exact List.pairwise_cons.mpr ⟨fun p hp => by have := hq p hp; simp only; omega, hm⟩
      · refine List.pairwise_cons.mpr ⟨fun p hp => ?_, ih hm⟩
        rcases Memory.mem_write font hp with hp | ⟨rfl, -⟩
        · exact hq p hp
        · simp only; omega

/-- What memory reads after writing `bs` from `a`: the k-th byte at `a + k`, the rest as before. -/
theorem Memory.read_writeBytes {m : Memory} (h : m.Pairwise (fun p q => p.1 < q.1)) (a : Nat)
    (bs : List Byte) (c : Nat) :
    Memory.read font (Memory.writeBytes font m a bs) c =
      if hc : a ≤ c ∧ c < a + bs.length then bs[c - a]'(by omega) else Memory.read font m c := by
  induction bs generalizing m a with
  | nil => rw [dif_neg (by simp only [List.length_nil]; omega)]; rfl
  | cons b bs ih =>
    rw [Memory.writeBytes, ih (Memory.pairwise_write font h a b), Memory.read_write font h]
    by_cases h1 : a + 1 ≤ c ∧ c < a + 1 + bs.length
    · rw [dif_pos h1, dif_pos (by simp only [List.length_cons]; omega)]
      obtain ⟨k, rfl⟩ := Nat.exists_eq_add_of_le h1.1
      have e1 : a + 1 + k - (a + 1) = k := by omega
      have e2 : a + 1 + k - a = k + 1 := by omega
      simp only [e1, e2, List.getElem_cons_succ]
    · rw [dif_neg h1]
      by_cases h2 : c = a
      · subst h2
        rw [if_pos rfl, dif_pos (by simp only [List.length_cons]; omega)]
        simp
      · rw [if_neg h2, dif_neg (by simp only [List.length_cons]; omega)]

/-- What the range check answers (R62): nothing when the bytes lie inside memory, else the first address
above 0xFFF, which is the start or 0x1000. -/
theorem firstOutOfRange_eq (a n : Nat) :
    firstOutOfRange a n =
      if n = 0 ∨ a + n ≤ 0x1000 then none else some (if a > 0xFFF then a else 0x1000) := by
  induction n generalizing a with
  | zero => simp [firstOutOfRange]
  | succ n ih =>
    simp only [firstOutOfRange, ih]
    repeat' split
    all_goals first | rfl | omega | (congr 1; omega)

/-- Everything a checked access at `I` can do: its effect when the bytes lie inside memory, else the
fault entry with the first bad address (R62, R63). -/
theorem withBytesAtI_cases (n : Nat) (op : Word) (s : State) (effect : State → State) :
    ((n = 0 ∨ s.i.toNat + n ≤ 0x1000) ∧ withBytesAtI n op s effect = .next (effect s)) ∨
    (n ≠ 0 ∧ s.i.toNat + n > 0x1000 ∧
      ∃ t, withBytesAtI n op s effect = .next t ∧
        FaultEntered .memOutOfRange (firstBadAddr s) op { s with pc := s.pc - 2 } t) := by
  unfold withBytesAtI
  rw [firstOutOfRange_eq]
  by_cases h : n = 0 ∨ s.i.toNat + n ≤ 0x1000
  · exact .inl ⟨h, by simp [h]⟩
  · rw [if_neg h]
    refine .inr ⟨by omega, by omega, ?_⟩
    have e : BitVec.ofNat 16 (if s.i.toNat > 0xFFF then s.i.toNat else 0x1000) = firstBadAddr s := by
      unfold firstBadAddr; split <;> simp
    simp only [e]
    exact raise_eq _ _ _ _

/-- The state's byte reads after one byte write. -/
theorem State.byteAt_setByte {s : State} (h : Memory.wf s.cfg.font s.mem) (a : Nat) (b : Byte)
    (c : Nat) : (s.setByte a b).byteAt c = if c = a then b else s.byteAt c :=
  Memory.read_write s.cfg.font h.1 a b c

end Sys2Proof.Machine
end

