-- ==== Sys2Proof/Laws/Operands.lean ====
section
/-! SUPPORT. The laws of the operand forms, of the key scan, of the full stack, of the block transfers and
of the checked accesses, each said once (spec/10_state.md R27; spec/20_memory.md R62; spec/44_input.md
R222, R225; spec/46_memory_block.md R253 to R255). -/

namespace Sys2Proof.Machine

/-- A 12-bit address widened is the same number (R93). -/
theorem toNat_addrOperand (nnn : Addr12) : (addrOperand nnn).toNat = nnn.toNat := by
  have := nnn.isLt
  exact (BitVec.toNat_setWidth ..).trans <|
    Nat.mod_eq_of_lt (by omega)

/-- A byte widened is the same number (R13). -/
theorem toNat_byteOperand (b : Byte) : (byteOperand b).toNat = b.toNat := by
  have := b.isLt
  exact (BitVec.toNat_setWidth ..).trans <|
    Nat.mod_eq_of_lt (by omega)

/-- The fetch's advance undone (R23). -/
theorem pc_add_sub (a : Word) : a + 2 - 2 = a := BitVec.add_sub_cancel a 2

/-- The word two bytes hold, as a number (R64). -/
theorem toNat_wordAt (s : State) (a : Nat) :
    (s.wordAt a).toNat = 256 * (s.byteAt a).toNat + (s.byteAt (a + 1)).toNat := by
  have h := (s.byteAt (a + 1)).isLt
  rw [State.wordAt, BitVec.toNat_append, ← Nat.shiftLeft_add_eq_or_of_lt h, Nat.shiftLeft_eq]
  omega

/-- The last register of a block transfer (R255). -/
theorem lastReg_eq (range : LsRange) (x : Reg) :
    lastReg range x = if range = .all then 0xF else x.val := by
  cases range <;> rfl

theorem lastReg_lt (range : LsRange) (x : Reg) : lastReg range x < 16 := by
  cases range
  · exact Nat.lt_succ_self 15
  · exact x.isLt

/-- `KeyIndex` answers the key where it does not fault (R222). -/
theorem keyIndex_some {policy : KeyIndexPolicy} {v : Byte} {k : Key}
    (h : v.toNat ≤ 0x0F ∨ policy = .lowNibble) (hk : k.val = v.toNat % 16) :
    keyIndex policy v = some k := by
  unfold keyIndex
  split
  · congr 1; apply Fin.ext; simp only; omega
  · rcases h with h | rfl
    · omega
    · exact congrArg some (Fin.ext hk.symm)

/-- `KeyIndex` faults on a value above 0x0F under KEY_INDEX_POLICY = FAULT (R222). -/
theorem keyIndex_none {v : Byte} (h : v.toNat > 0x0F) : keyIndex .fault v = none := by
  unfold keyIndex
  rw [dif_neg (by omega)]

/-- Some key is pressed (R223). -/
theorem someKey_iff (s : State) : s.someKey = true ↔ ∃ k : Key, s.key k = true := by
  simp only [State.someKey, State.key, Vector.any_eq_true, id]
  exact ⟨fun ⟨i, h, e⟩ => ⟨⟨i, h⟩, e⟩, fun ⟨k, e⟩ => ⟨k.val, k.isLt, e⟩⟩

/-- The lowest pressed key (R225). -/
theorem toNat_lowestKey (s : State) (k : Key) (hk : s.key k = true)
    (low : ∀ j : Key, j < k → s.key j = false) : s.lowestKey.toNat = k.val := by
  have e : s.keys.toList.findIdx id = k.val := by
    rw [List.findIdx_eq (by simp)]
    refine ⟨by simpa [State.key] using hk, fun j hj => ?_⟩
    have := low ⟨j, by omega⟩ hj
    simpa [State.key] using this
  have hl := k.isLt
  rw [State.lowestKey, e, BitVec.toNat_ofNat]
  omega

/-- The stack is full exactly at `STACK_DEPTH` entries (R27). -/
theorem stackFull_iff (s : State) :
    s.stackFull = true ↔ s.cfg.stackDepth = some s.stack.length := by
  unfold State.stackFull
  split
  · next h => simp [h]
  · next d h => rw [h, beq_iff_eq, Option.some.injEq]; exact eq_comm

/-- A byte after a block of bytes is written (R64). -/
theorem byteAt_writeBytes (s : State) (wf : Memory.wf s.cfg.font s.mem) (a : Nat) (bs : List Byte)
    (c : Nat) :
    State.byteAt { s with mem := Memory.writeBytes s.cfg.font s.mem a bs } c =
      if hc : a ≤ c ∧ c < a + bs.length then bs[c - a]'(by omega) else s.byteAt c :=
  Memory.read_writeBytes s.cfg.font wf.1 a bs c

/-- The register file after a block load (R254). -/
theorem reg_loadedRegs (s : State) (n : Nat) (r : Reg) :
    (loadedRegs s n)[r.val] = if r.val < n then s.byteAt (s.i.toNat + r.val) else s.reg r := by
  induction n with
  | zero => rfl
  | succ n ih =>
    rw [loadedRegs, Vector.getElem_setIfInBounds]
    split
    · next h => subst h; simp
    · rw [ih]
      by_cases h : r.val < n
      · rw [if_pos h, if_pos (by omega)]
      · rw [if_neg h, if_neg (by omega)]

/-- A register after a draw: VF is the collision, the others as before (R195). -/
theorem reg_drawSprite (s : State) (x0 y0 rows : Nat) (r : Reg) :
    (drawSprite x0 y0 rows s).reg r =
      if r = regVF then flagByte (drawRows s x0 y0 rows).collision else s.reg r :=
  State.reg_setReg { s with fb := (drawRows s x0 y0 rows).fb } regVF r _

/-- A checked access inside memory has its effect (R62). -/
theorem withBytesAtI_ok {n : Nat} {s : State} (h : n = 0 ∨ s.i.toNat + n ≤ 0x1000) (op : Word)
    (effect : State → State) : withBytesAtI n op s effect = .next (effect s) := by
  rcases withBytesAtI_cases n op s effect with ⟨-, e⟩ | ⟨h1, h2, -⟩
  · exact e
  · omega

/-- A checked access that leaves memory enters the fault (R62, R272). -/
theorem withBytesAtI_bad {n : Nat} {s : State} (h : ¬ (n = 0 ∨ s.i.toNat + n ≤ 0x1000)) (op : Word)
    (effect : State → State) :
    ∃ t, withBytesAtI n op s effect = .next t ∧
      FaultEntered .memOutOfRange (firstBadAddr s) op { s with pc := s.pc - 2 } t := by
  rcases withBytesAtI_cases n op s effect with ⟨h1, -⟩ | ⟨-, -, e⟩
  · exact absurd h1 h
  · exact e

/-- The block instructions on bytes inside memory (R251, R253, R254, R190). -/
theorem exec_ldB_ok {s : State} (h : s.i.toNat + 3 ≤ 0x1000) (x : Reg) :
    exec (.ldB x) s = .next (writeBcd x s) := withBytesAtI_ok (.inr h) _ _

theorem exec_storeRegs_ok {s : State} {x : Reg}
    (h : s.i.toNat + (lastReg s.cfg.lsRange x + 1) ≤ 0x1000) :
    exec (.storeRegs x) s = .next (writeRegs (lastReg s.cfg.lsRange x + 1) s) :=
  withBytesAtI_ok (.inr h) _ _

theorem exec_loadRegs_ok {s : State} {x : Reg}
    (h : s.i.toNat + (lastReg s.cfg.lsRange x + 1) ≤ 0x1000) :
    exec (.loadRegs x) s = .next (readRegs (lastReg s.cfg.lsRange x + 1) s) :=
  withBytesAtI_ok (.inr h) _ _

theorem exec_drw_ok {s : State} {x y : Reg} {n : Nibble}
    (h : spriteRows n (spriteRow s y) = 0 ∨ s.i.toNat + spriteRows n (spriteRow s y) ≤ 0x1000) :
    exec (.drw x y n) s =
      .next (drawSprite (spriteCol s x) (spriteRow s y) (spriteRows n (spriteRow s y)) s) :=
  withBytesAtI_ok h _ _

/-- One timer's decrement as a number (R276). -/
theorem toNat_decTimer (t : Byte) : (decTimer t).toNat = t.toNat - 1 := by
  unfold decTimer
  split
  · rw [BitVec.toNat_sub_of_le (by rw [BitVec.le_def]; exact ‹_›)]; rfl
  · omega

end Sys2Proof.Machine
end

