-- ==== Sys2Proof/Laws/PerInstr.lean ====
section
/-! SUPPORT. Per-instruction laws: the encoding of every instruction has the fixed bits its row of
spec/opcode_table.json gives. -/

namespace Sys2Proof.Laws

/-- The encoding of `i` has its opcode-table row's pattern under that row's mask. -/
def OpcodeTable.Statement (i : Instr) : Prop :=
  encode i &&& (opcodeRow i).mask = (opcodeRow i).pattern

/-- A word of each shape under the mask of its family. -/
theorem maskC_packNNN (c : Nibble) (nnn : Addr12) : packNNN c nnn &&& 0xF000 = packNNN c 0 := by
  rw [and_maskC, fieldC_packNNN]

theorem maskC_packXNN (c : Nibble) (x : Reg) (nn : Byte) : packXNN c x nn &&& 0xF000 = packNNN c 0 := by
  rw [and_maskC, fieldC_packXNN]

theorem maskC_packXYN (c : Nibble) (x y : Reg) (n : Nibble) :
    packXYN c x y n &&& 0xF000 = packNNN c 0 := by
  rw [and_maskC, fieldC_packXYN]

theorem maskCN_packXYN (c : Nibble) (x y : Reg) (n : Nibble) :
    packXYN c x y n &&& 0xF00F = packXYN c 0 0 n := by
  rw [and_maskCN, fieldC_packXYN, fieldN_packXYN]

theorem maskCNN_packXNN (c : Nibble) (x : Reg) (nn : Byte) :
    packXNN c x nn &&& 0xF0FF = packXNN c 0 nn := by
  rw [and_maskCNN, fieldC_packXNN, fieldNN_packXNN]

theorem OpcodeTable.cls : OpcodeTable.Statement .cls := rfl

theorem OpcodeTable.ret : OpcodeTable.Statement .ret := rfl

theorem OpcodeTable.sys (nnn : Addr12) : OpcodeTable.Statement (.sys nnn) :=
  maskC_packNNN ..

theorem OpcodeTable.jp (nnn : Addr12) : OpcodeTable.Statement (.jp nnn) :=
  maskC_packNNN ..

theorem OpcodeTable.call (nnn : Addr12) : OpcodeTable.Statement (.call nnn) :=
  maskC_packNNN ..

theorem OpcodeTable.seImm (x : Reg) (nn : Byte) : OpcodeTable.Statement (.seImm x nn) :=
  maskC_packXNN ..

theorem OpcodeTable.sneImm (x : Reg) (nn : Byte) : OpcodeTable.Statement (.sneImm x nn) :=
  maskC_packXNN ..

theorem OpcodeTable.seReg (x y : Reg) (n : Nibble) : OpcodeTable.Statement (.seReg x y n) :=
  maskC_packXYN ..

theorem OpcodeTable.ldImm (x : Reg) (nn : Byte) : OpcodeTable.Statement (.ldImm x nn) :=
  maskC_packXNN ..

theorem OpcodeTable.addImm (x : Reg) (nn : Byte) : OpcodeTable.Statement (.addImm x nn) :=
  maskC_packXNN ..

theorem OpcodeTable.ldReg (x y : Reg) : OpcodeTable.Statement (.ldReg x y) :=
  maskCN_packXYN ..

theorem OpcodeTable.orReg (x y : Reg) : OpcodeTable.Statement (.orReg x y) :=
  maskCN_packXYN ..

theorem OpcodeTable.andReg (x y : Reg) : OpcodeTable.Statement (.andReg x y) :=
  maskCN_packXYN ..

theorem OpcodeTable.xorReg (x y : Reg) : OpcodeTable.Statement (.xorReg x y) :=
  maskCN_packXYN ..

theorem OpcodeTable.addReg (x y : Reg) : OpcodeTable.Statement (.addReg x y) :=
  maskCN_packXYN ..

theorem OpcodeTable.subReg (x y : Reg) : OpcodeTable.Statement (.subReg x y) :=
  maskCN_packXYN ..

theorem OpcodeTable.shr (x y : Reg) : OpcodeTable.Statement (.shr x y) :=
  maskCN_packXYN ..

theorem OpcodeTable.subnReg (x y : Reg) : OpcodeTable.Statement (.subnReg x y) :=
  maskCN_packXYN ..

theorem OpcodeTable.shl (x y : Reg) : OpcodeTable.Statement (.shl x y) :=
  maskCN_packXYN ..

theorem OpcodeTable.sneReg (x y : Reg) (n : Nibble) : OpcodeTable.Statement (.sneReg x y n) :=
  maskC_packXYN ..

theorem OpcodeTable.ldI (nnn : Addr12) : OpcodeTable.Statement (.ldI nnn) :=
  maskC_packNNN ..

theorem OpcodeTable.jpV0 (nnn : Addr12) : OpcodeTable.Statement (.jpV0 nnn) :=
  maskC_packNNN ..

theorem OpcodeTable.rnd (x : Reg) (nn : Byte) : OpcodeTable.Statement (.rnd x nn) :=
  maskC_packXNN ..

theorem OpcodeTable.drw (x y : Reg) (n : Nibble) : OpcodeTable.Statement (.drw x y n) :=
  maskC_packXYN ..

theorem OpcodeTable.skp (x : Reg) : OpcodeTable.Statement (.skp x) :=
  maskCNN_packXNN ..

theorem OpcodeTable.sknp (x : Reg) : OpcodeTable.Statement (.sknp x) :=
  maskCNN_packXNN ..

theorem OpcodeTable.ldVxDt (x : Reg) : OpcodeTable.Statement (.ldVxDt x) :=
  maskCNN_packXNN ..

theorem OpcodeTable.ldVxK (x : Reg) : OpcodeTable.Statement (.ldVxK x) :=
  maskCNN_packXNN ..

theorem OpcodeTable.ldDtVx (x : Reg) : OpcodeTable.Statement (.ldDtVx x) :=
  maskCNN_packXNN ..

theorem OpcodeTable.ldStVx (x : Reg) : OpcodeTable.Statement (.ldStVx x) :=
  maskCNN_packXNN ..

theorem OpcodeTable.addI (x : Reg) : OpcodeTable.Statement (.addI x) :=
  maskCNN_packXNN ..

theorem OpcodeTable.ldF (x : Reg) : OpcodeTable.Statement (.ldF x) :=
  maskCNN_packXNN ..

theorem OpcodeTable.ldB (x : Reg) : OpcodeTable.Statement (.ldB x) :=
  maskCNN_packXNN ..

theorem OpcodeTable.storeRegs (x : Reg) : OpcodeTable.Statement (.storeRegs x) :=
  maskCNN_packXNN ..

theorem OpcodeTable.loadRegs (x : Reg) : OpcodeTable.Statement (.loadRegs x) :=
  maskCNN_packXNN ..

end Sys2Proof.Laws
end

