-- ==== Sys2Proof/Laws/Step.lean ====
section
/-! SUPPORT. Everything a STEP can do, said once (spec/10_state.md R41; spec/20_memory.md R70, R71). -/

namespace Sys2Proof.Machine

/-- The fetch's check, case by case (R70, R71, R274). -/
theorem fetchFault_cases (s : State) :
    (s.pc.toNat > 0xFFE ∧ fetchFault s = some .fetchOutOfRange) ∨
    (s.pc.toNat ≤ 0xFFE ∧ s.cfg.pcAlignCheck = true ∧ s.pc.toNat % 2 = 1 ∧
      fetchFault s = some .fetchMisaligned) ∨
    (s.pc.toNat ≤ 0xFFE ∧ (s.cfg.pcAlignCheck = true → s.pc.toNat % 2 = 0) ∧
      fetchFault s = none) := by
  have odd : s.pc.getLsbD 0 = true ↔ s.pc.toNat % 2 = 1 := by
    rw [BitVec.getLsbD, Nat.testBit_zero, decide_eq_true_eq]
  unfold fetchFault
  by_cases h : s.pc.toNat > 0xFFE
  · exact .inl ⟨h, if_pos h⟩
  · rw [if_neg h]
    by_cases h2 : (s.cfg.pcAlignCheck && s.pc.getLsbD 0) = true
    · rw [if_pos h2]
      rw [Bool.and_eq_true, odd] at h2
      exact .inr (.inl ⟨by omega, h2.1, h2.2, rfl⟩)
    · rw [if_neg h2]
      rw [Bool.and_eq_true, odd] at h2
      exact .inr (.inr ⟨by omega, fun hc => by
        have : ¬ s.pc.toNat % 2 = 1 := fun e => h2 ⟨hc, e⟩
        omega, rfl⟩)

/-- A fetch succeeds exactly from the states that fetch. -/
theorem fetchFault_none_iff {s : State} (h : s.halted = false) (w : s.waiting = false) :
    fetchFault s = none ↔ s.fetches := by
  rcases fetchFault_cases s with ⟨a, e⟩ | ⟨a, b, c, e⟩ | ⟨a, b, e⟩ <;> rw [e]
  · exact ⟨nofun, fun k => absurd k.2.2.1 (by omega)⟩
  · exact ⟨nofun, fun k => absurd (k.2.2.2 b) (by omega)⟩
  · exact ⟨fun _ => ⟨h, w, a, b⟩, fun _ => rfl⟩

/-- A STEP from a state that fetches. -/
theorem step_of_fetches {s : State} (h : s.fetches) :
    step s = execDecoded (decodeWord (fetchedWord s)) (afterFetch s) := by
  unfold step
  rw [h.1, h.2.1, (fetchFault_none_iff h.1 h.2.1).mpr h]
  rfl

/-- Everything a STEP can do: stay halted, check for a key, fault at the fetch, or fetch and execute. -/
theorem step_cases {s t : State} (h : step s = .next t) :
    (s.halted = true ∧ t = s) ∨
    (s.halted = false ∧ s.waiting = true ∧ t = awaitKey s) ∨
    (s.halted = false ∧ s.waiting = false ∧
      ∃ code, code ≠ .noFault ∧ fetchFault s = some code ∧ t = s.enterFault code s.pc 0) ∨
    (s.fetches ∧ execDecoded (decodeWord (fetchedWord s)) (afterFetch s) = .next t) := by
  by_cases hh : s.halted = true
  · have e : step s = .next s := if_pos hh
    rw [e] at h; cases h
    exact .inl ⟨hh, rfl⟩
  · by_cases hw : s.waiting = true
    · have e : step s = .next (awaitKey s) := (if_neg hh).trans (if_pos hw)
      rw [e] at h; cases h
      exact .inr (.inl ⟨by simpa using hh, hw, rfl⟩)
    · have hh : s.halted = false := by simpa using hh
      have hw : s.waiting = false := by simpa using hw
      cases hf : fetchFault s with
      | none =>
        have f := (fetchFault_none_iff hh hw).mp hf
        exact .inr (.inr (.inr ⟨f, (step_of_fetches f).symm.trans h⟩))
      | some code =>
        have e : step s = .next (s.enterFault code s.pc 0) := by
          unfold step; rw [hh, hw, hf]; rfl
        rw [e] at h; cases h
        refine .inr (.inr (.inl ⟨hh, hw, code, ?_, rfl, rfl⟩))
        rcases fetchFault_cases s with ⟨-, k⟩ | ⟨-, -, -, k⟩ | ⟨-, -, k⟩ <;> rw [hf] at k <;> cases k <;>
          exact nofun

/-- The fault entry seen from before the fetch: `pc` is back at the faulting instruction (R272). -/
theorem faultEntered_of_afterFetch {s t : State} {code : FaultCode} {addr op : Word}
    (h : FaultEntered code addr op { afterFetch s with pc := (afterFetch s).pc - 2 } t) :
    FaultEntered code addr op s t := by
  have e : { afterFetch s with pc := (afterFetch s).pc - 2 } = s := by
    show { s with pc := s.pc + 2 - 2 } = s
    rw [pc_add_sub]
  rwa [e] at h

end Sys2Proof.Machine
end

