-- ==== Sys2Proof/Tests/Slice0.lean ====
section
/-! SUPPORT. Tests with results from outside the model: the vectors of spec/95_test_vectors.md (their ids in
the comments), the opcode map (R101) and the font table (R66). Then, for every statement with hypotheses, a
state and operands that meet them, at the boundary values of each clause. -/

namespace Sys2Proof.Tests

set_option Elab.async false

open Sys2Proof.Machine

/-! ### Helpers -/

/-- The state after RESET with an empty image and these V registers. -/
def regs (l : List (Reg × Byte)) : State := l.foldl (fun s p => s.setReg p.1 p.2) State.reset

/-- The parameters changed. -/
def cfgOf (f : Config → Config) (s : State) : State := { s with cfg := f s.cfg }

/-- A sprite or data block in memory at 0x300, with `I` there. -/
def data (bytes : List Byte) (s : State) : State :=
  { s with i := 0x300, mem := Memory.writeBytes s.cfg.font s.mem 0x300 bytes }

/-- A lit pixel. -/
def lit (r c : Nat) (s : State) : State := { s with fb := s.fb.setPixel r c true }

/-- The next state an outcome holds. -/
def nextOf : Result → Option State
  | .next t => some t
  | _ => none

/-- The state after one STEP of the word `w` placed at `pc`. -/
def run1 (w : Nat) (s : State) : Option State := nextOf (step (s.withFetchWord 16 w))

/-- The status registers as the vectors write them. -/
def status (s : State) : Bool × FaultCode × Word × Word × Word :=
  (s.halted, s.faultCode, s.faultPc, s.faultAddr, s.faultOp)

/-- The lit pixels of a row, by column. -/
def litCols (r : Nat) (s : State) : List Nat := (List.range 64).filter (s.pixel r)

/-- Vk = k + 1 (MEM10). -/
def countingRegs : State := { State.reset with v := Vector.ofFn fun k => BitVec.ofNat 8 (k.val + 1) }

/-- The word `w` at `a`, and `pc` there. -/
def wordAtPc (a : Word) (w : Nat) (s : State) : State := { s with pc := a }.withFetchWord 16 w

/-! ### WellFormed: each check refuses an ill-formed term -/

theorem test_wf_sys_00E0 : Instr.wf (.sys 0x0E0) = false := by decide
theorem test_wf_sys_00EE : Instr.wf (.sys 0x0EE) = false := by decide
theorem test_wf_sys_01EE : Instr.wf (.sys 0x1EE) = true := by decide

/-! ### Decoding, words written out from the opcode map (R101; DEC1 to DEC14) -/

theorem test_decode_family0 :
    decodeTableWord 16 0x00E0 = some .cls ∧ decodeTableWord 16 0x00EE = some .ret ∧
    decodeTableWord 16 0x0000 = some (.sys 0x000) ∧ decodeTableWord 16 0x00E1 = some (.sys 0x0E1) ∧
    decodeTableWord 16 0x01EE = some (.sys 0x1EE) ∧ decodeTableWord 16 0x00FF = some (.sys 0x0FF) := by
  decide

theorem test_decode_control :
    decodeTableWord 16 0x1ABC = some (.jp 0xABC) ∧ decodeTableWord 16 0x2300 = some (.call 0x300) ∧
    decodeTableWord 16 0x3A42 = some (.seImm 0xA 0x42) ∧
    decodeTableWord 16 0x4A42 = some (.sneImm 0xA 0x42) ∧
    decodeTableWord 16 0x5AB7 = some (.seReg 0xA 0xB 0x7) ∧
    decodeTableWord 16 0x9AB1 = some (.sneReg 0xA 0xB 0x1) ∧
    decodeTableWord 16 0xB5F0 = some (.jpV0 0x5F0) := by
  decide

theorem test_decode_load_add :
    decodeTableWord 16 0x6A5C = some (.ldImm 0xA 0x5C) ∧
    decodeTableWord 16 0x7AFF = some (.addImm 0xA 0xFF) ∧
    decodeTableWord 16 0xABCD = some (.ldI 0xBCD) ∧
    decodeTableWord 16 0xC30F = some (.rnd 0x3 0x0F) ∧
    decodeTableWord 16 0xD12F = some (.drw 0x1 0x2 0xF) := by
  decide

theorem test_decode_family8 :
    decodeTableWord 16 0x8AB0 = some (.ldReg 0xA 0xB) ∧ decodeTableWord 16 0x8AB1 = some (.orReg 0xA 0xB) ∧
    decodeTableWord 16 0x8AB2 = some (.andReg 0xA 0xB) ∧ decodeTableWord 16 0x8AB3 = some (.xorReg 0xA 0xB) ∧
    decodeTableWord 16 0x8AB4 = some (.addReg 0xA 0xB) ∧ decodeTableWord 16 0x8AB5 = some (.subReg 0xA 0xB) ∧
    decodeTableWord 16 0x8AB6 = some (.shr 0xA 0xB) ∧ decodeTableWord 16 0x8AB7 = some (.subnReg 0xA 0xB) ∧
    decodeTableWord 16 0x8ABE = some (.shl 0xA 0xB) := by
  decide

theorem test_decode_familyE :
    decodeTableWord 16 0xE59E = some (.skp 0x5) ∧ decodeTableWord 16 0xE5A1 = some (.sknp 0x5) := by
  decide

theorem test_decode_familyF :
    decodeTableWord 16 0xF507 = some (.ldVxDt 0x5) ∧ decodeTableWord 16 0xF30A = some (.ldVxK 0x3) ∧
    decodeTableWord 16 0xF515 = some (.ldDtVx 0x5) ∧ decodeTableWord 16 0xF518 = some (.ldStVx 0x5) ∧
    decodeTableWord 16 0xF31E = some (.addI 0x3) ∧ decodeTableWord 16 0xF129 = some (.ldF 0x1) ∧
    decodeTableWord 16 0xF233 = some (.ldB 0x2) ∧ decodeTableWord 16 0xF255 = some (.storeRegs 0x2) ∧
    decodeTableWord 16 0xF265 = some (.loadRegs 0x2) := by
  decide

theorem test_decode_unknown :
    (∀ w ∈ [0x8AB8, 0x8AB9, 0x8ABA, 0x8ABB, 0x8ABC, 0x8ABD, 0x8ABF, 0xE09F, 0xE0A0, 0xE0A2, 0xF000, 0xF0FF,
      0xF030, 0xF075, 0xF085], decodeTableWord 16 w = none) ∧
    decodeWord 0x8ABF = .unknown 0x8ABF := by
  decide

/-! ### Control flow -/

/-- EX6, CTL19. -/
theorem test_cls : (run1 0x00E0 (lit 31 63 (lit 0 0 State.reset))).map
    (fun t => (litCols 0 t, litCols 31 t, t.pc, t.events)) = some ([], [], 0x202, [.frameCleared]) := by
  decide +kernel

/-- CTL4. -/
theorem test_ret : (run1 0x00EE { State.reset with pc := 0x300, stack := [0x204] }).map
    (fun t => (t.pc, t.stack, t.halted)) = some (0x204, [], false) := by
  decide +kernel

/-- CTL5. -/
theorem test_ret_underflow : (run1 0x00EE { State.reset with pc := 0x300 }).map
    (fun t => (status t, t.pc, t.events)) =
      some ((true, .stackUnderflow, 0x300, 0, 0x00EE), 0x300, [.fault .stackUnderflow 0x300 0 0x00EE]) := by
  decide +kernel

/-- CTL18. -/
theorem test_sys : (run1 0x0123 State.reset).map (fun t => (t.pc, t.events)) =
    some (0x202, [.report .legacySys 0x0123 0x200]) := by
  decide +kernel

/-- CTL2, an odd target. -/
theorem test_jp : (run1 0x1201 State.reset).map (fun t => (t.pc, t.halted)) = some (0x201, false) := by
  decide +kernel

/-- CTL3. -/
theorem test_call : (run1 0x2300 { State.reset with pc := 0x202 }).map (fun t => (t.pc, t.stack)) =
    some (0x300, [0x204]) := by
  decide +kernel

/-- CTL6. -/
theorem test_call_overflow :
    (run1 0x2300 { State.reset with stack := List.replicate 16 0x202 }).map
      (fun t => (status t, t.pc, t.stack.length)) =
    some ((true, .stackOverflow, 0x200, 0x202, 0x2300), 0x200, 16) := by
  decide +kernel

/-- CTL7, CTL8. -/
theorem test_seImm : (run1 0x3A42 (regs [(0xA, 0x42)])).map (·.pc) = some 0x204 ∧
    (run1 0x3A42 (regs [(0xA, 0x41)])).map (·.pc) = some 0x202 := by
  decide +kernel

/-- CTL9, CTL10. -/
theorem test_sneImm : (run1 0x4A42 (regs [(0xA, 0x41)])).map (·.pc) = some 0x204 ∧
    (run1 0x4A42 (regs [(0xA, 0x42)])).map (·.pc) = some 0x202 := by
  decide +kernel

/-- CTL11, CTL12. -/
theorem test_seReg : (run1 0x5AB7 (regs [(0xA, 3), (0xB, 3)])).map (·.pc) = some 0x204 ∧
    (run1 0x5AB0 (regs [(0xA, 3), (0xB, 4)])).map (·.pc) = some 0x202 := by
  decide +kernel

/-- CTL13, CTL14. -/
theorem test_sneReg : (run1 0x9AB0 (regs [(0xA, 3), (0xB, 4)])).map (·.pc) = some 0x204 ∧
    (run1 0x9AA0 (regs [(0xA, 3)])).map (·.pc) = some 0x202 := by
  decide +kernel

/-- CTL16, CTL17. -/
theorem test_jpV0 : (run1 0xBFFF (regs [(0, 0xFF)])).map (fun t => (t.pc, t.halted)) =
      some (0x10FE, false) ∧
    (run1 0xB5F0 (regs [(0, 0x01), (5, 0x80)])).map (·.pc) = some 0x5F1 := by
  decide +kernel

/-- CTL20, a skip past the end of memory. -/
theorem test_skip_past_end : (run1 0x3000 { State.reset with pc := 0xFFC }).map
    (fun t => (t.pc, t.halted)) = some (0x1000, false) := by
  decide +kernel

/-- CTL22. -/
theorem test_fetch_out_of_range :
    (nextOf (step { State.reset with pc := 0xFFF })).map (fun t => (status t, t.pc)) =
      some ((true, .fetchOutOfRange, 0xFFF, 0xFFF, 0), 0xFFF) := by
  decide +kernel

/-- CTL23. -/
theorem test_fetch_odd : (run1 0x1201 { State.reset with pc := 0x201 }).map
    (fun t => (t.pc, t.halted)) = some (0x201, false) := by
  decide +kernel

/-- CTL24. -/
theorem test_fetch_misaligned :
    (nextOf (step (cfgOf (fun c => { c with pcAlignCheck := true })
      { State.reset with pc := 0x201 }))).map status =
      some (true, .fetchMisaligned, 0x201, 0x201, 0) := by
  decide +kernel

/-- ALU28. -/
theorem test_unknown : (run1 0x8AB8 (regs [(0xA, 1), (0xB, 2)])).map
    (fun t => (t.pc, t.reg 0xA, t.events)) = some (0x202, 1, [.report .unknownOpcode 0x8AB8 0x200]) := by
  decide +kernel

/-! ### Register arithmetic -/

/-- ALU1. -/
theorem test_ldImm : (run1 0x6A5C State.reset).map (fun t => t.reg 0xA) = some 0x5C := by
  decide +kernel

/-- ALU2. -/
theorem test_addImm : (run1 0x7AFF (regs [(0xA, 0x02), (0xF, 0x77)])).map
    (fun t => (t.reg 0xA, t.reg 0xF)) = some (0x01, 0x77) := by
  decide +kernel

/-- ALU4. -/
theorem test_ldReg : (run1 0x8AB0 (regs [(0xB, 0x99)])).map (fun t => (t.reg 0xA, t.reg 0xB)) =
    some (0x99, 0x99) := by
  decide +kernel

/-- ALU5. -/
theorem test_orReg : (run1 0x8AB1 (regs [(0xA, 0xF0), (0xB, 0x0F), (0xF, 0x55)])).map
    (fun t => (t.reg 0xA, t.reg 0xF)) = some (0xFF, 0x55) := by
  decide +kernel

/-- ALU6. -/
theorem test_andReg : (run1 0x8AB2 (regs [(0xA, 0xF0), (0xB, 0x3C), (0xF, 0x55)])).map
    (fun t => (t.reg 0xA, t.reg 0xF)) = some (0x30, 0x55) := by
  decide +kernel

/-- ALU7. -/
theorem test_xorReg : (run1 0x8AB3 (regs [(0xA, 0xF0), (0xB, 0x3C), (0xF, 0x55)])).map
    (fun t => (t.reg 0xA, t.reg 0xF)) = some (0xCC, 0x55) := by
  decide +kernel

/-- EX2a, ALU9. -/
theorem test_addReg : (run1 0x8014 (regs [(0, 0xFF), (1, 0x01)])).map (fun t => (t.reg 0, t.reg 0xF)) =
      some (0x00, 1) ∧
    (run1 0x8014 (regs [(0, 0xFE), (1, 0x01)])).map (fun t => (t.reg 0, t.reg 0xF)) = some (0xFF, 0) := by
  decide +kernel

/-- ALU12, ALU13: VF as destination and as operand. -/
theorem test_addReg_vf : (run1 0x8F14 (regs [(0xF, 0x10), (1, 0x01)])).map (fun t => t.reg 0xF) = some 0 ∧
    (run1 0x80F4 (regs [(0, 0x01), (0xF, 0xFF)])).map (fun t => (t.reg 0, t.reg 0xF)) = some (0x00, 1) := by
  decide +kernel

/-- EX3a, ALU15. -/
theorem test_subReg : (run1 0x8015 (regs [(0, 0x05), (1, 0x0A)])).map (fun t => (t.reg 0, t.reg 0xF)) =
      some (0xFB, 0) ∧
    (run1 0x8015 (regs [(0, 0x07), (1, 0x07)])).map (fun t => (t.reg 0, t.reg 0xF)) = some (0x00, 0) := by
  decide +kernel

/-- ALU18, ALU19. -/
theorem test_subnReg : (run1 0x8017 (regs [(0, 0x05), (1, 0x0A)])).map (fun t => (t.reg 0, t.reg 0xF)) =
      some (0x05, 1) ∧
    (run1 0x8017 (regs [(0, 0x0A), (1, 0x05)])).map (fun t => (t.reg 0, t.reg 0xF)) = some (0xFB, 0) := by
  decide +kernel

/-- ALU22, ALU24. -/
theorem test_shr : (run1 0x8016 (regs [(0, 0x02), (1, 0xFF)])).map
      (fun t => (t.reg 0, t.reg 0xF, t.reg 1)) = some (0x01, 0, 0xFF) ∧
    (run1 0x8F06 (regs [(0xF, 0x03)])).map (fun t => t.reg 0xF) = some 1 := by
  decide +kernel

/-- ALU25, ALU27. -/
theorem test_shl : (run1 0x800E (regs [(0, 0x81)])).map (fun t => (t.reg 0, t.reg 0xF)) = some (0x02, 1) ∧
    (run1 0x8F0E (regs [(0xF, 0x80)])).map (fun t => t.reg 0xF) = some 1 := by
  decide +kernel

/-! ### Index and random -/

/-- IDX1. -/
theorem test_ldI : (run1 0xAFFF State.reset).map (·.i) = some 0xFFF := by
  decide +kernel

/-- IDX2, IDX3. -/
theorem test_addI : (run1 0xF01E { regs [(0, 0x01), (0xF, 0x33)] with i := 0x0FFF }).map
      (fun t => (t.i, t.reg 0xF)) = some (0x1000, 0x33) ∧
    (run1 0xF01E { regs [(0, 0x02)] with i := 0xFFFF }).map (·.i) = some 0x0001 := by
  decide +kernel

/-- IDX4, IDX6, the byte given. -/
theorem test_rnd : (rndEffect 0xAB 0 0x0F State.reset).reg 0 = 0x0B ∧
    (rndEffect 0x5A 0 0xFF State.reset).reg 0 = 0x5A := by
  decide +kernel

/-- IDX5, whatever the byte drawn. -/
theorem test_rnd_masked : ∃ t, exec (.rnd 0 0x00) State.reset = .next t ∧ t.reg 0 = 0x00 := by
  refine ⟨_, rfl, (State.reg_setReg ..).trans ?_⟩
  rw [if_pos rfl]
  exact BitVec.and_zero

/-! ### Sprite draw -/

/-- SPR2, EX4's variant. -/
theorem test_drw_collision : (run1 0xD011 (lit 0 7 (data [0x81] State.reset))).map
    (fun t => (litCols 0 t, t.reg 0xF, t.events.length)) = some ([0], 1, 1) := by
  decide +kernel

/-- SPR5, SPR9: the origin wraps, and VF is read as a column before it is written. -/
theorem test_drw_origin : (run1 0xD015 (data [0x80] (regs [(0, 65), (1, 32)]))).map
      (fun t => (litCols 0 t, t.reg 0xF)) = some ([1], 0) ∧
    (run1 0xDF01 (data [0x80] (regs [(0xF, 5), (0, 2)]))).map (fun t => (litCols 2 t, t.reg 0xF)) =
      some ([5], 0) := by
  decide +kernel

/-- EX5, SPR3: clipped at column 63. -/
theorem test_drw_clip_columns : (run1 0xD011 (data [0xFF] (regs [(0, 60)]))).map
    (fun t => (litCols 0 t, t.reg 0xF)) = some ([60, 61, 62, 63], 0) := by
  decide +kernel

/-- SPR7, SPR8: a clipped row is not read, a row on the screen is. -/
theorem test_drw_range :
    (run1 0xD012 { (regs [(1, 31)]).setByte 0xFFF 0x80 with i := 0xFFF }).map
      (fun t => (litCols 31 t, t.halted)) = some ([0], false) ∧
    (run1 0xD012 { State.reset.setByte 0xFFF 0x80 with i := 0xFFF }).map
      (fun t => (status t, litCols 0 t)) =
      some ((true, .memOutOfRange, 0x200, 0x1000, 0xD012), []) := by
  decide +kernel

/-- SPR10: font glyph 0. -/
theorem test_drw_font : (run1 0xD005 { State.reset with i := 0x000 }).map
    (fun t => [litCols 0 t, litCols 1 t, litCols 2 t, litCols 3 t, litCols 4 t, litCols 5 t]) =
    some [[0, 1, 2, 3], [0, 3], [0, 3], [0, 3], [0, 1, 2, 3], []] := by
  decide +kernel

/-- The font table's first and last glyphs and glyph 7 (R66, RST1). -/
theorem test_font : (List.range 5).map State.reset.byteAt = [0xF0, 0x90, 0x90, 0x90, 0xF0] ∧
    (List.range 5).map (fun k => State.reset.byteAt (0x023 + k)) = [0xF0, 0x10, 0x20, 0x40, 0x40] ∧
    (List.range 5).map (fun k => State.reset.byteAt (0x04B + k)) = [0xF0, 0x80, 0xF0, 0x80, 0x80] ∧
    State.reset.byteAt 0x050 = 0 := by
  decide +kernel

/-! ### Input and timers -/

/-- INP1, INP2, INP6. -/
theorem test_skp : (run1 0xE59E (setKey 0xA true (regs [(5, 0x0A)]))).map (·.pc) = some 0x204 ∧
    (run1 0xE59E (regs [(5, 0x0A)])).map (·.pc) = some 0x202 ∧
    (run1 0xE59E (setKey 0xA true (cfgOf (fun c => { c with keyIndexPolicy := .lowNibble })
      (regs [(5, 0x1A)])))).map (·.pc) = some 0x204 := by
  decide +kernel

/-- INP5. -/
theorem test_skp_fault : (run1 0xE59E (regs [(5, 0x1A)])).map status =
    some (true, .keyOutOfRange, 0x200, 0x001A, 0xE59E) := by
  decide +kernel

/-- INP3, INP4. -/
theorem test_sknp : (run1 0xE5A1 (regs [(5, 0x0A)])).map (·.pc) = some 0x204 ∧
    (run1 0xE5A1 (setKey 0xA true (regs [(5, 0x0A)]))).map (·.pc) = some 0x202 := by
  decide +kernel

/-- INP7. -/
theorem test_ldVxK : (run1 0xF30A (setKey 4 true (setKey 9 true State.reset))).map
    (fun t => (t.reg 3, t.waiting, t.pc)) = some (0x04, false, 0x202) := by
  decide +kernel

/-- EX7, first STEP. -/
theorem test_ldVxK_waits : (run1 0xF30A State.reset).map (fun t => (t.waiting, t.waitX, t.pc)) =
    some (true, 3, 0x202) := by
  decide +kernel

/-- EX7, the STEP after KEY(7, true); WAIT_X stays (P6). -/
theorem test_await :
    nextOf (step (setKey 7 true { State.reset with pc := 0x202, waiting := true, waitX := 3 })) =
    some { (setKey 7 true State.reset).setReg 3 0x07 with pc := 0x202, waitX := 3 } := by
  decide +kernel

/-- TMR2. -/
theorem test_ldVxDt : (run1 0xF507 { State.reset with dt := 0x2A }).map (fun t => t.reg 5) = some 0x2A := by
  decide +kernel

/-- TMR1. -/
theorem test_ldDtVx : (run1 0xF515 (regs [(5, 0x3C)])).map (fun t => (t.dt, t.st)) = some (0x3C, 0) := by
  decide +kernel

/-- TMR3, TMR4. -/
theorem test_ldStVx : (run1 0xF518 (regs [(5, 0x02)])).map (fun t => (t.st, t.dt, tone t)) =
      some (2, 0, true) ∧
    (run1 0xF518 { State.reset with st := 5 }).map (fun t => (t.st, tone t)) = some (0, false) := by
  decide +kernel

/-- EX8, TMR6: the floor at 0. -/
theorem test_tick : tick { State.reset with st := 3 } = { State.reset with st := 2 } ∧
    tick State.reset = State.reset := by
  decide +kernel

/-! ### Memory block -/

/-- MEM1, MEM2. -/
theorem test_ldF : (run1 0xF129 (regs [(1, 0x1A)])).map (·.i) = some 0x032 ∧
    (run1 0xF129 (regs [(1, 0x0F)])).map (·.i) = some 0x04B := by
  decide +kernel

/-- MEM3. -/
theorem test_ldB : (run1 0xF033 (data [] (regs [(0, 0xFE)]))).map
    (fun t => (t.byteAt 0x300, t.byteAt 0x301, t.byteAt 0x302, t.i)) =
    some (0x02, 0x05, 0x04, 0x300) := by
  decide +kernel

/-- MEM8, P8, MEM9: the first bad address is 0x1000, or `I` itself. -/
theorem test_ldB_fault : (run1 0xF033 { regs [(0, 123)] with i := 0xFFE }).map
      (fun t => (status t, t.byteAt 0xFFE, t.byteAt 0xFFF)) =
      some ((true, .memOutOfRange, 0x200, 0x1000, 0xF033), 0, 0) ∧
    (run1 0xF033 { regs [(0, 123)] with i := 0x2000 }).map status =
      some (true, .memOutOfRange, 0x200, 0x2000, 0xF033) :=
  ⟨by decide +kernel, by decide +kernel⟩

/-- MEM11: through x. -/
theorem test_storeRegs_throughX :
    (run1 0xF255 (data [] (cfgOf (fun c => { c with lsRange := .throughX }) countingRegs))).map
      (fun t => ((List.range 4).map (fun k => t.byteAt (0x300 + k)), t.i)) =
    some ([1, 2, 3, 0], 0x300) := by
  decide +kernel

/-- MEM12, MEM13. -/
theorem test_storeRegs : (run1 0xF055 { countingRegs with i := 0xFF0 }).map
      (fun t => (t.byteAt 0xFF0, t.byteAt 0xFFF, t.halted)) = some (0x01, 0x10, false) ∧
    (run1 0xF055 { countingRegs with i := 0xFF1 }).map (fun t => (status t, t.byteAt 0xFF1)) =
      some ((true, .memOutOfRange, 0x200, 0x1000, 0xF055), 0) := by
  decide +kernel

/-- MEM15. -/
theorem test_loadRegs :
    (run1 0xF065 (data ((List.range 16).map (fun k => BitVec.ofNat 8 (0x10 + k))) State.reset)).map
      (fun t => (t.reg 0, t.reg 9, t.reg 0xF, t.i)) = some (0x10, 0x19, 0x1F, 0x300) := by
  decide +kernel

/-- MEM16: through x. -/
theorem test_loadRegs_throughX :
    (run1 0xF265 (data ((List.range 16).map (fun k => BitVec.ofNat 8 (0x10 + k)))
      (cfgOf (fun c => { c with lsRange := .throughX }) (regs [(0xA, 0x77)])))).map
      (fun t => (t.reg 2, t.reg 3, t.reg 0xA)) = some (0x12, 0x00, 0x77) := by
  decide +kernel

/-! ### Transactions and ports -/

/-- RST1: the image's bytes, and the rest of the program area 0. -/
theorem test_reset_image :
    let t := resetWith [0x12, 0x00] { regs [(3, 9)] with pc := 0x999, halted := true, st := 7 }
    (t.byteAt 0x200, t.byteAt 0x201, t.byteAt 0xFFF, t.pc, t.reg 3, t.halted, t.st) =
      (0x12, 0x00, 0x00, 0x200, 0, false, 0) := by
  decide +kernel

/-- RST4: from reset with nothing placed, the first STEP runs `0000`. -/
theorem test_reset_step : nextOf (step State.reset) =
    some { State.reset with pc := 0x202, events := [.report .legacySys 0x0000 0x200] } := by
  decide +kernel

/-- TMR7: frozen while halted. -/
theorem test_halted_frozen :
    nextOf (runTransactions [.tick, .key 3 true, .step]
      { State.reset with dt := 5, st := 5, halted := true, faultCode := .stackUnderflow }) =
    some { State.reset with dt := 5, st := 5, halted := true, faultCode := .stackUnderflow } := by
  decide +kernel

/-- The packed word of a fault with code 5 and of a wait on V3 (R35). -/
theorem test_statusWord :
    statusWord { State.reset with halted := true, faultCode := .memOutOfRange } = 0x0501 ∧
    statusWord { State.reset with waiting := true, waitX := 3 } = 0x0032 := by
  decide +kernel

/-- The strobe of a report (R47). -/
theorem test_outputs : (run1 0x0123 State.reset).map (fun t =>
    ((outputs State.reset t).evReport, (outputs State.reset t).evUpdate)) =
    some (some (.legacySys, 0x0123, 0x200), false) := by
  decide +kernel

/-- The reset memory has the canonical form. -/
theorem test_reset_mem_wf : Memory.wf State.reset.cfg.font State.reset.mem := Memory.wf_nil _

/-! ### Witnesses: the hypotheses of each statement met together, clause by clause

A theorem here names the statement it is for; the statements without hypotheses have none. -/

/-- A statement's hypothesis that `f` answers a next state, and what holds of it. -/
def Answers (r : Result) (p : State → Prop) : Prop := ∃ t, r = .next t ∧ p t

theorem fetches_of {s : State} (h : s.halted = false) (w : s.waiting = false) (r : s.pc.toNat ≤ 0xFFE)
    (c : s.cfg.pcAlignCheck = false) : s.fetches :=
  ⟨h, w, r, fun e => absurd (c.symm.trans e) Bool.false_ne_true⟩

theorem reset_fetches : State.reset.fetches := fetches_of rfl rfl (by decide) rfl

theorem witness_DecodeOfEncodeIsTheInstruction :
    Instr.wf (.sys 0x0EF) = true ∧ Instr.wf (.drw 0xF 0xF 0xF) = true := by decide

theorem witness_EncodeOfDecodeIsTheWord : decodeWord 0x5AB7 = .instr (.seReg 0xA 0xB 0x7) := by decide

theorem witness_DecoderFollowsOpcodeTable :
    decodeWord 0x8A06 = .instr (.shr 0xA 0x0) ∧
    (0x8A06 : Word) &&& (opcodeRow (.shr 0 0)).mask = (opcodeRow (.shr 0 0)).pattern ∧
    (0x00EF : Word) &&& (opcodeRow (.sys 0)).mask = (opcodeRow (.sys 0)).pattern ∧
    (0x00EF : Word) ≠ 0x00E0 ∧ (0x00EF : Word) ≠ 0x00EE := by decide

theorem witness_UnknownWordsAreThoseOfFamilies8EF :
    decodeWord 0x8AB8 = .unknown 0x8AB8 ∧ decodeWord 0xE09F = .unknown 0xE09F ∧
    decodeWord 0xF066 = .unknown 0xF066 := by decide

theorem witness_FamilyZeroMatchesFullWord :
    (0x00E0 : Word).toNat < 0x1000 ∧ (0x00EE : Word).toNat < 0x1000 ∧
    (0x0FFF : Word).toNat < 0x1000 ∧ (0x0FFF : Word) ≠ 0x00E0 ∧ (0x0FFF : Word) ≠ 0x00EE := by decide

theorem witness_StepRunsTheDecodedInstruction :
    let s := wordAtPc 0xFFE 0x1FFE State.reset
    s.fetches ∧ (0x1FFE : Word).toNat =
      256 * (s.byteAt s.pc.toNat).toNat + (s.byteAt (s.pc.toNat + 1)).toNat ∧
    decodeWord 0x1FFE = .instr (.jp 0xFFE) :=
  ⟨fetches_of (by decide +kernel) (by decide +kernel) (by decide +kernel) (by decide +kernel),
    by decide +kernel, by decide +kernel⟩

theorem witness_PlacedWordIsRun :
    Memory.wf State.reset.cfg.font State.reset.mem ∧ State.reset.fetches ∧ 0xF265 < 0x10000 ∧
    decodeTableWord 16 0xF265 = some (.loadRegs 2) :=
  ⟨Memory.wf_nil _, reset_fetches, by decide, by decide⟩

theorem witness_FetchReadsTheWordOrFaults :
    ({ State.reset with pc := 0xFFF }).halted = false ∧ ({ State.reset with pc := 0xFFF }).waiting = false ∧
    ({ State.reset with pc := 0xFFF }).pc.toNat > 0xFFE ∧
    (let s := cfgOf (fun c => { c with pcAlignCheck := true }) { State.reset with pc := 0xFFD }
     s.halted = false ∧ s.waiting = false ∧ s.pc.toNat ≤ 0xFFE ∧ s.cfg.pcAlignCheck = true ∧
       s.pc.toNat % 2 = 1) ∧
    (let s := cfgOf (fun c => { c with pcAlignCheck := true }) { State.reset with pc := 0xFFE }
     s.halted = false ∧ s.waiting = false ∧ s.pc.toNat ≤ 0xFFE ∧
       (s.cfg.pcAlignCheck = true → s.pc.toNat % 2 = 0)) := by decide

theorem witness_UnknownWordIsReportedNoOp :
    let s := wordAtPc 0x200 0xF0FF State.reset
    s.fetches ∧ s.wordAt s.pc.toNat = 0xF0FF ∧ decodeWord 0xF0FF = .unknown 0xF0FF :=
  ⟨fetches_of (by decide +kernel) (by decide +kernel) (by decide +kernel) (by decide +kernel),
    by decide +kernel, by decide +kernel⟩

theorem witness_RetPopsOrUnderflows :
    ({ State.reset with stack := [0x204] }).stack = 0x204 :: [] ∧ State.reset.stack = [] := by decide

theorem witness_SysIsReportedNoOp :
    (0x0EF : Addr12) ≠ 0x0E0 ∧ (0x0EF : Addr12) ≠ 0x0EE := by decide

/-- 15 entries, 16 entries, and any number on the unbounded stack. -/
theorem witness_CallPushesOrOverflows :
    (let s := { State.reset with stack := List.replicate 15 0x202 }
     s.cfg.stackDepth ≠ some s.stack.length) ∧
    (let s := { State.reset with stack := List.replicate 16 0x202 }
     s.cfg.stackDepth = some s.stack.length) ∧
    (let s := cfgOf (fun c => { c with stackDepth := none })
       { State.reset with stack := List.replicate 17 0x202 }
     s.cfg.stackDepth ≠ some s.stack.length) := by decide

theorem witness_RetUndoesCall :
    State.reset.cfg.stackDepth ≠ some State.reset.stack.length ∧
    Answers (exec (.call 0x300) State.reset) (fun t =>
      Answers (exec .ret { t with pc := t.pc + 2 }) (fun _ => True)) :=
  ⟨by decide, _, rfl, _, rfl, trivial⟩

/-- The clause on Vx asks x ≠ 0xF; the clause on VF holds for x = 0xF too. -/
theorem witness_AddSetsCarry_SubtractionsSetBorrowStatus_ShiftsMoveVxByOne : (0xE : Reg) ≠ 0xF := by
  decide

theorem witness_VfHasNoOtherWriter :
    Answers (exec (.addReg 0 1) (regs [(0, 0xFF), (1, 1)])) (fun t =>
      t.reg 0xF ≠ (regs [(0, 0xFF), (1, 1)]).reg 0xF) ∧
    Answers (exec (.ldImm 0xF 7) State.reset) (fun t => t.reg 0xF ≠ State.reset.reg 0xF) :=
  ⟨⟨_, rfl, by decide +kernel⟩, ⟨_, rfl, by decide +kernel⟩⟩

theorem witness_RndMasksOneFreshDraw :
    (7 : Nat) < 8 ∧ (0x0F : Byte).getLsbD 7 = false := by decide

/-- All rows on the screen in memory (the clipped row at 0x1000 is not read), and one row too far. -/
theorem witness_DrawXorsTheClippedSprite :
    (let s := { regs [(1, 31)] with i := 0xFFF }
     let rows := min (2 : Nibble).toNat (32 - (s.reg 1).toNat % 32)
     ∀ r < rows, s.i.toNat + r ≤ 0xFFF) ∧
    (let s := { regs [(1, 30)] with i := 0xFFF }
     let rows := min (2 : Nibble).toNat (32 - (s.reg 1).toNat % 32)
     ∃ r < rows, s.i.toNat + r > 0xFFF) := by decide +kernel

/-- The two clauses on VF: a pixel that went from 1 to 0, and none that did. -/
theorem witness_DrawXorsTheClippedSprite_vf :
    ((run1 0xD011 (lit 0 7 (data [0x81] State.reset))).map (fun t => t.pixel 0 7) = some false ∧
      (lit 0 7 (data [0x81] State.reset)).pixel 0 7 = true) ∧
    ∀ r c, r < 32 → c < 64 → State.reset.pixel r c ≠ true := by
  refine ⟨by decide +kernel, fun r c _ _ h => ?_⟩
  have e : State.reset.pixel r c = false := Framebuffer.pixel_blank r c
  rw [e] at h
  cases h

theorem witness_SecondDrawUndoesTheFirst :
    (0 : Reg) ≠ 0xF ∧ (1 : Reg) ≠ 0xF ∧
    Answers (exec (.drw 0 1 1) (data [0x81] State.reset)) (fun t => t.halted = false ∧
      Answers (exec (.drw 0 1 1) t) (fun _ => True)) := by
  have ok : ∀ t : State, t.i = 0x300 → spriteRows 1 (spriteRow t 1) = 0 ∨
      t.i.toNat + spriteRows 1 (spriteRow t 1) ≤ 0x1000 := fun t h => by
    have : spriteRows 1 (spriteRow t 1) ≤ 1 := Nat.min_le_left _ _
    rw [h]
    exact .inr (Nat.le_trans (Nat.add_le_add_left this _) (by decide))
  exact ⟨by decide, by decide, _, exec_drw_ok (ok _ rfl), rfl, _, exec_drw_ok (ok _ rfl), trivial⟩

theorem witness_FramebufferHasNoOtherWriter :
    Answers (transact .step (wordAtPc 0x200 0x00E0 (lit 0 0 State.reset))) (fun t =>
      t.pixel 0 0 ≠ (wordAtPc 0x200 0x00E0 (lit 0 0 State.reset)).pixel 0 0) ∧
    Answers (transact (.reset []) (lit 0 0 State.reset)) (fun t =>
      t.pixel 0 0 ≠ (lit 0 0 State.reset).pixel 0 0) := by
  constructor
  · have h : ((nextOf (transact .step (wordAtPc 0x200 0x00E0 (lit 0 0 State.reset)))).any
        (fun t => t.pixel 0 0 != (wordAtPc 0x200 0x00E0 (lit 0 0 State.reset)).pixel 0 0)) = true := by
      decide +kernel
    unfold Answers
    cases e : transact .step (wordAtPc 0x200 0x00E0 (lit 0 0 State.reset)) with
    | next t => rw [e] at h; exact ⟨t, rfl, by simpa [nextOf] using h⟩
    | fault r => cases r
    | refused r => rw [e] at h; cases h
  · exact ⟨_, rfl, by decide +kernel⟩

/-- 0x0F in the first clause, 0x10 masked, 0x10 faulting. -/
theorem witness_KeySkipsReadTheSnapshot :
    ((regs [(5, 0x0F)]).reg 5).toNat ≤ 0x0F ∧
    (0xF : Key).val = ((regs [(5, 0x0F)]).reg 5).toNat % 16 ∧
    (let s := cfgOf (fun c => { c with keyIndexPolicy := .lowNibble }) (regs [(5, 0x10)])
     s.cfg.keyIndexPolicy = .lowNibble ∧ (0 : Key).val = (s.reg 5).toNat % 16) ∧
    (((regs [(5, 0x10)]).reg 5).toNat > 0x0F ∧ (regs [(5, 0x10)]).cfg.keyIndexPolicy = .fault) := by
  decide +kernel

/-- Key 0xF alone, and no key. -/
theorem witness_LoadKeyStoresLowestOrWaits :
    ((setKey 0xF true State.reset).key 0xF = true ∧
      ∀ j : Key, j < 0xF → (setKey 0xF true State.reset).key j = false) ∧
    ∀ k : Key, State.reset.key k = false := by decide +kernel

theorem witness_AwaitingStepCompletesOnAKey :
    (let s := setKey 0xF true { State.reset with waiting := true, waitX := 3 }
     s.halted = false ∧ s.waiting = true ∧ s.key 0xF = true ∧ ∀ j : Key, j < 0xF → s.key j = false) ∧
    (let s := { State.reset with waiting := true, waitX := 3 }
     s.halted = false ∧ s.waiting = true ∧ ∀ k : Key, s.key k = false) := by decide +kernel

theorem witness_KeyTransactionSetsOneKey_TickDecrementsToZero_HaltedCoreIsFrozen :
    ({ State.reset with halted := true }).halted = true ∧ State.reset.halted = false ∧
    (0xF : Key) ≠ 0xE := by decide

theorem witness_ToneFollowsSoundTimer :
    Answers (exec (.ldStVx 5) (regs [(5, 1)])) (fun _ => (regs [(5, 1)]).halted = false) :=
  ⟨_, rfl, by decide +kernel⟩

/-- The last address that fits, and the first that does not. -/
theorem witness_BcdStoresThreeDigits :
    Memory.wf State.reset.cfg.font State.reset.mem ∧
    ({ State.reset with i := 0xFFD }).i.toNat + 2 ≤ 0xFFF ∧
    ({ State.reset with i := 0xFFE }).i.toNat + 2 > 0xFFF :=
  ⟨Memory.wf_nil _, by decide, by decide⟩

/-- Under both values of LS_RANGE. -/
theorem witness_StoreRegistersAtI_LoadRegistersFromI :
    Memory.wf State.reset.cfg.font State.reset.mem ∧
    (let last := if State.reset.cfg.lsRange = .all then 0xF else (2 : Reg).val
     last = 0xF ∧ (0xFF0 : Word).toNat + last ≤ 0xFFF ∧ (0xFF1 : Word).toNat + last > 0xFFF) ∧
    (let last := if LsRange.throughX = .all then 0xF else (2 : Reg).val
     last = 2 ∧ (0xFFD : Word).toNat + last ≤ 0xFFF ∧ (0xFFE : Word).toNat + last > 0xFFF) :=
  ⟨Memory.wf_nil _, by decide, by decide⟩

theorem witness_LoadAfterStoreKeepsRegisters :
    Memory.wf State.reset.cfg.font State.reset.mem ∧
    Answers (exec (.storeRegs 2) State.reset) (fun t => t.halted = false ∧
      Answers (exec (.loadRegs 2) t) (fun _ => True)) :=
  ⟨Memory.wf_nil _, _, exec_storeRegs_ok (by decide), rfl, _, exec_loadRegs_ok (by decide +kernel),
    trivial⟩

theorem witness_WrittenByteIsReadBack :
    Memory.wf defaultFont [] ∧ (0xFFF : Nat) < 4096 ∧ (0xFFE : Nat) ≠ 0xFFF :=
  ⟨Memory.wf_nil _, by decide, by decide⟩

theorem witness_CanonicalMemoryIsItsReads :
    Memory.wf defaultFont [(0x300, 0x01)] ∧
    ∀ a < 4096, Memory.read defaultFont [(0x300, 0x01)] a = Memory.read defaultFont [(0x300, 0x01)] a :=
  ⟨by decide +kernel, fun _ _ => rfl⟩

/-- A store of V0 to VF over its own following word, at the last pair of bytes it writes. -/
theorem witness_StoredWordIsFetchedNext :
    let s := { State.reset with i := 0x1F2 }
    Memory.wf s.cfg.font s.mem ∧ (0xF = if s.cfg.lsRange = .all then 0xF else (2 : Reg).val) ∧
    s.i.toNat + 0xF ≤ 0xFFF ∧ (0xE : Reg).val = 0xE ∧ (0xF : Reg).val = 0xE + 1 ∧ 0xE + 1 ≤ 0xF ∧
    s.pc.toNat = s.i.toNat + 0xE ∧
    Answers (exec (.storeRegs 2) s) (fun t => t.fetches) :=
  ⟨Memory.wf_nil _, by decide, by decide, rfl, rfl, by decide, by decide, _,
    exec_storeRegs_ok (by decide), fetches_of rfl rfl (by decide) rfl⟩

/-- One state for each row of the table. -/
theorem witness_FaultsAreExactlyTheTable :
    FaultRow { State.reset with pc := 0xFFF } .fetchOutOfRange 0xFFF 0 ∧
    FaultRow (cfgOf (fun c => { c with pcAlignCheck := true }) { State.reset with pc := 0xFFD })
      .fetchMisaligned 0xFFD 0 ∧
    FaultRow (wordAtPc 0x200 0x00EE State.reset) .stackUnderflow 0 0x00EE ∧
    FaultRow (wordAtPc 0x200 0x2300 { State.reset with stack := List.replicate 16 0x202 })
      .stackOverflow 0x202 0x2300 ∧
    FaultRow (wordAtPc 0x200 0xF033 { State.reset with i := 0xFFE }) .memOutOfRange 0x1000 0xF033 ∧
    FaultRow (wordAtPc 0x200 0xE59E (regs [(5, 0x10)])) .keyOutOfRange 0x0010 0xE59E := by
  refine ⟨.fetchOutOfRange (by decide), .fetchMisaligned (by decide) rfl (by decide),
    .stackUnderflow _ (fetches_of ?_ ?_ ?_ ?_) ?_ ?_ ?_,
    .stackOverflow _ 0x300 (fetches_of ?_ ?_ ?_ ?_) ?_ ?_ ?_,
    .memOutOfRange _ (.ldB 0) (fetches_of ?_ ?_ ?_ ?_) ?_ ?_ 2 ?_ ?_,
    .keyOutOfRange _ 5 (fetches_of ?_ ?_ ?_ ?_) ?_ (.inl ?_) ?_ ?_⟩ <;> decide +kernel

/-- A state in which no row holds: `1200` at 0x200. -/
theorem witness_FaultsAreExactlyTheTable_none :
    let s := wordAtPc 0x200 0x1200 State.reset
    s.halted = false ∧ s.waiting = false ∧ ∀ code addr op, ¬ FaultRow s code addr op := by
  have w : (wordAtPc 0x200 0x1200 State.reset).wordAt 0x200 = 0x1200 := by decide +kernel
  have d : decodeWord 0x1200 = .instr (.jp 0x200) := by decide
  have pc : (wordAtPc 0x200 0x1200 State.reset).pc.toNat = 0x200 := by decide +kernel
  refine ⟨by decide +kernel, by decide +kernel, fun code addr op h => ?_⟩
  cases h with
  | fetchOutOfRange h => rw [pc] at h; exact absurd h (by decide)
  | fetchMisaligned _ c _ => exact absurd c (by decide +kernel)
  | stackUnderflow _ _ e i _ => rw [pc, w] at e; rw [← e, d] at i; cases i
  | stackOverflow _ _ _ e i _ => rw [pc, w] at e; rw [← e, d] at i; cases i
  | memOutOfRange _ i _ e i' k used _ =>
    rw [pc, w] at e; rw [← e, d] at i'; cases i'; exact absurd used (Nat.not_lt_zero k)
  | keyOutOfRange _ _ _ e i _ _ =>
    rw [pc, w] at e
    rcases i with i | i <;> (rw [← e, d] at i; cases i)

theorem witness_FaultsArePrecise :
    ({ State.reset with pc := 0xFFF }).halted = false ∧
    Answers (step { State.reset with pc := 0xFFF }) (fun t => t.halted = true) :=
  ⟨rfl, _, rfl, rfl⟩

theorem witness_EachEventHasItsEmitter :
    Answers (transact .tick State.reset) (fun _ => Transaction.tick ≠ .step) ∧
    Answers (transact .step { State.reset with pc := 0xFFF }) (fun _ => True) :=
  ⟨⟨_, rfl, by decide⟩, ⟨_, rfl, trivial⟩⟩

/-- The longest image, and the address ranges of every clause about bytes. -/
theorem witness_ResetPutsEveryStateInPlace :
    (List.replicate 3584 (0x12 : Byte)).length ≤ 3584 ∧ [(0x12 : Byte), 0x00][1]? = some 0x00 ∧
    (0x050 : Nat) ≤ 0x1FF ∧ 0x1FF < 0x200 ∧ 0x200 + [(0x12 : Byte), 0x00].length ≤ 0xFFF := by
  refine ⟨by rw [List.length_replicate], by decide, by decide, by decide, by decide⟩

theorem witness_OnlyOversizedResetIsRefused :
    (List.replicate 3585 (0 : Byte)).length > 3584 ∧
    (∀ image, Transaction.tick = .reset image → image.length ≤ 3584) :=
  ⟨by rw [List.length_replicate]; decide, nofun⟩

/-- 0x200 + 0xDFF is the last address of memory, 0x200 + 0xE00 the first past it; a TICK after a STEP
leaves the port closed. -/
theorem witness_CommandPortLoadsTheImage :
    [(0x12 : Byte), 0x00].length ≤ 3584 ∧
    Answers (transact (.reset [0x12, 0x00]) State.reset) (fun _ => True) ∧
    (∃ q, command .step { core := { State.reset with pc := 0xFFF }, loadOpen := true } = .next q) ∧
    (∃ q, command .tick { core := State.reset, loadOpen := false } = .next q) ∧
    Memory.wf State.reset.cfg.font State.reset.mem ∧
    0x200 + (0xDFF : Addr12).toNat ≤ 0xFFF ∧ 0x200 + (0xE00 : Addr12).toNat > 0xFFF :=
  ⟨by decide, ⟨_, rfl, trivial⟩, ⟨_, rfl⟩, ⟨_, rfl⟩, Memory.wf_nil _, by decide, by decide⟩

/-- The hypotheses of the cycle clauses: all three requests, none of them, and a RESET beside them. -/
theorem witness_CommandPortLoadsTheImage_cycle :
    (let p : Port := { core := { State.reset with pc := 0xFFF }, loadOpen := true }
     let q : Requests := { reset := false, key := some (0xF, true), tick := true, step := true }
     q.reset = false ∧ q.key = some (0xF, true) ∧ q.tick = true ∧ q.step = true ∧
     ∃ afterKey afterTick afterStep, command (.key 0xF true) p = .next afterKey ∧
       command .tick afterKey = .next afterTick ∧ command .step afterTick = .next afterStep) ∧
    (let q : Requests := { reset := false, key := none, tick := false, step := false }
     q.reset = false ∧ q.key = none ∧ q.tick = false ∧ q.step = false) ∧
    ({ reset := true, key := some (0xF, true), tick := true, step := true } : Requests).reset = true :=
  ⟨⟨rfl, rfl, rfl, rfl, _, _, _, rfl, rfl, rfl⟩, ⟨rfl, rfl, rfl, rfl⟩, rfl⟩

/-- STEP, TICK, LOAD_BYTE: the byte is not loaded (R47). -/
theorem test_port_stays_closed :
    (match runCommands [.reset, .step, .tick, .loadByte 0 0x12] { core := State.reset, loadOpen := false } with
      | .next q => (q.core.byteAt 0x200, q.loadOpen)
      | _ => (0xFF, true)) = (0x00, false) := by
  decide +kernel

/-- RST1's state, and a jump to itself in the last word of memory (CTL21). -/
theorem witness_IdleStateIsUnchangedByStep :
    State.idleAt (resetWith [0x12, 0x00] State.reset) 0x200 ∧ (0x200 : Addr12).toNat % 2 = 0 ∧
    State.idleAt (wordAtPc 0xFFE 0x1FFE State.reset) 0xFFE :=
  ⟨⟨by decide +kernel, by decide +kernel, by decide +kernel, by decide +kernel, by decide +kernel⟩,
    by decide, ⟨by decide +kernel, by decide +kernel, by decide +kernel, by decide +kernel,
      by decide +kernel⟩⟩

/-- A state other than reset: `pc` at its largest, a return address at each end of its range. -/
def farState : State :=
  { State.reset with pc := 0x10FE, stack := [0x002, 0x1000], events := [.frameCleared] }

theorem witness_StepKeepsTheInvariant : Inv farState ∧ Answers (step farState) (fun _ => True) := by
  refine ⟨?_, _, rfl, trivial⟩
  constructor
  · exact Memory.wf_nil _
  · exact Nat.le_refl 0x10FE
  · exact List.forall_mem_cons.mpr ⟨by decide, List.forall_mem_cons.mpr ⟨by decide, nofun⟩⟩
  · intro d h
    cases h
    show 2 ≤ 16
    decide
  · exact ⟨nofun, fun h => absurd rfl h⟩
  · exact nofun
  · exact nofun
  · exact fun _ => ⟨rfl, rfl, rfl⟩

theorem witness_ReachableStatesMeetTheInvariant :
    Reachable (tick (resetWith [0x12, 0x00] { State.reset with cfg := defaultConfig })) :=
  .more .tick (.first defaultConfig [0x12, 0x00] (by decide)) rfl

theorem witness_EachStateHasItsWriters :
    let s := wordAtPc 0x200 0xA300 State.reset
    s.fetches ∧ decodeWord (s.wordAt s.pc.toNat) = .instr (.ldI 0x300) ∧
    (nextOf (step s)).map (fun t => t.i) ≠ some s.i :=
  ⟨fetches_of (by decide +kernel) (by decide +kernel) (by decide +kernel) (by decide +kernel),
    by decide +kernel, by decide +kernel⟩

theorem witness_NoInstructionReadsStatusOrSoundTimer :
    let s' := { State.reset with st := 9, waitX := 3, events := [.frameCleared] }
    s' = { State.reset with
      st := s'.st, halted := s'.halted, faultCode := s'.faultCode, faultPc := s'.faultPc,
      faultAddr := s'.faultAddr, faultOp := s'.faultOp, waiting := s'.waiting, waitX := s'.waitX,
      events := s'.events } ∧
    Answers (exec (.ldVxDt 0) State.reset) (fun _ => True) :=
  ⟨rfl, _, rfl, trivial⟩

end Sys2Proof.Tests
end

section
/-! SUPPORT. Everything one executed word can do to the state, said once (spec/10_state.md R41). The
invariant, the writers of each state and the writers of VF follow from it. -/

namespace Sys2Proof.Machine

/-- The V registers a decoded word may write: its destination, VF for a flag writer, V0 to V(last) for a
block load (R21, R22, R255). -/
def writtenRegs (s : State) : Decoded → List Reg
  | .instr (.ldImm x _) | .instr (.addImm x _) | .instr (.rnd x _) => [x]
  | .instr (.ldReg x _) | .instr (.orReg x _) | .instr (.andReg x _) | .instr (.xorReg x _) => [x]
  | .instr (.addReg x _) | .instr (.subReg x _) | .instr (.subnReg x _) => [x, regVF]
  | .instr (.shr x _) | .instr (.shl x _) => [x, regVF]
  | .instr (.drw _ _ _) => [regVF]
  | .instr (.ldVxDt x) | .instr (.ldVxK x) => [x]
  | .instr (.loadRegs x) => (List.finRange 16).filter (·.val ≤ lastReg s.cfg.lsRange x)
  | _ => []

/-- The states executing `d` can lead to from `s`, the state the fetch left: one constructor per kind of
effect, with the instructions that have it where a rule restricts them. -/
inductive ExecEffect (d : Decoded) (s : State) : State → Prop where
  /-- A fault entry (R272). -/
  | faults {code : FaultCode} {addr op : Word} {t : State}
      (entered : FaultEntered code addr op { s with pc := s.pc - 2 } t) (real : code ≠ .noFault) :
      ExecEffect d s t
  /-- A report and nothing else (R102, R122). -/
  | reports (e : Event) : ExecEffect d s (s.emit e)
  /-- CLS (R120). -/
  | clears (hd : d = .instr .cls) : ExecEffect d s (s.clearFb.emit .frameCleared)
  /-- A jump to at most 0x10FE (R24), or a skip, taken or not (R131). -/
  | jumps (a : Word) (range : a = s.pc ∨ a = s.pc + 2 ∨ a.toNat ≤ 0x10FE) :
      ExecEffect d s (s.setPc a)
  /-- RET (R121). -/
  | returns (a : Word) (rest : List Word) (hd : d = .instr .ret) (top : s.stack = a :: rest) :
      ExecEffect d s { s with stack := rest, pc := a }
  /-- CALL (R124). -/
  | calls (nnn : Addr12) (hd : d = .instr (.call nnn))
      (room : s.cfg.stackDepth ≠ some s.stack.length) :
      ExecEffect d s ((s.push s.pc).setPc (addrOperand nnn))
  /-- A write of V registers (R20, R22). -/
  | writesRegs {t : State} (change : OnlyRegsChange (writtenRegs s d) s t) : ExecEffect d s t
  /-- RND (R182). -/
  | draws (x : Reg) (nn : Byte) (hd : d = .instr (.rnd x nn)) :
      ExecEffect d s (rndEffect s.drawRnd8.1 x nn s.drawRnd8.2)
  /-- DRW (R190). -/
  | composes (x y : Reg) (n : Nibble) (hd : d = .instr (.drw x y n)) (x0 y0 rows : Nat) :
      ExecEffect d s (drawSprite x0 y0 rows s)
  /-- LD I, ADD I, LD F (R25). -/
  | setsI (a : Word) (hd : (∃ nnn, d = .instr (.ldI nnn)) ∨
      ∃ x, d = .instr (.addI x) ∨ d = .instr (.ldF x)) : ExecEffect d s (s.setI a)
  /-- LD DT (R241). -/
  | setsDt (x : Reg) (hd : d = .instr (.ldDtVx x)) : ExecEffect d s { s with dt := s.reg x }
  /-- LD ST (R242). -/
  | setsSt (x : Reg) (hd : d = .instr (.ldStVx x)) : ExecEffect d s { s with st := s.reg x }
  /-- LD Vx, K with no key down (R223). -/
  | waits (x : Reg) (hd : d = .instr (.ldVxK x)) :
      ExecEffect d s { s with waiting := true, waitX := x }
  /-- LD B and LD [I], which write inside memory (R61, R62). -/
  | stores (bs : List Byte) (hd : ∃ x, d = .instr (.ldB x) ∨ d = .instr (.storeRegs x))
      (inside : s.i.toNat + bs.length ≤ memSize) :
      ExecEffect d s { s with mem := Memory.writeBytes s.cfg.font s.mem s.i.toNat bs }

/-- A raised fault is a fault entry. -/
theorem ExecEffect.of_raise {d : Decoded} {s t : State} {code : FaultCode} {addr op : Word}
    (h : raise code addr op s = .next t) (real : code ≠ .noFault) : ExecEffect d s t := by
  obtain ⟨u, hu, entered⟩ := raise_eq code addr op s
  cases hu.symm.trans h
  exact .faults entered real

/-- A checked access at `I` faults, or has its effect on bytes inside memory (R62, R63). -/
theorem ExecEffect.of_withBytesAtI {d : Decoded} {n : Nat} {op : Word} {s t : State}
    {effect : State → State} (h : withBytesAtI n op s effect = .next t)
    (ok : n = 0 ∨ s.i.toNat + n ≤ memSize → ExecEffect d s (effect s)) : ExecEffect d s t := by
  rcases withBytesAtI_cases n op s effect with ⟨inside, e⟩ | ⟨-, -, u, e, entered⟩ <;>
    cases e.symm.trans h
  · exact ok inside
  · exact .faults entered nofun

/-- A skip, taken or not. -/
theorem ExecEffect.of_skipIf {d : Decoded} (s : State) (c : Bool) : ExecEffect d s (s.skipIf c) := by
  cases c
  · exact .jumps s.pc (.inl rfl)
  · exact .jumps (s.pc + 2) (.inr (.inl rfl))

/-- A write of one register that is a destination of `d`. -/
theorem ExecEffect.of_setReg {d : Decoded} {s : State} {x : Reg} (h : writtenRegs s d = [x])
    (b : Byte) : ExecEffect d s (s.setReg x b) :=
  .writesRegs (h ▸ onlyRegsChange_setReg s x b)

/-- A write of a result and its flag. -/
theorem ExecEffect.of_setRegFlag {d : Decoded} {s : State} {x : Reg}
    (h : writtenRegs s d = [x, regVF]) (b : Byte) (f : Bool) :
    ExecEffect d s (s.setRegFlag x b f) :=
  .writesRegs (h ▸ onlyRegsChange_setRegFlag s x b f)

/-- Every jump target is at most 0x10FE (R24). -/
theorem toNat_addrOperand_add_byteOperand_le (nnn : Addr12) (b : Byte) :
    (addrOperand nnn + byteOperand b).toNat ≤ 0x10FE := by
  have ha := nnn.isLt
  have hb := b.isLt
  rw [BitVec.toNat_add, toNat_addrOperand, toNat_byteOperand]
  omega

theorem toNat_addrOperand_le (nnn : Addr12) : (addrOperand nnn).toNat ≤ 0x10FE := by
  have ha := nnn.isLt
  rw [toNat_addrOperand]
  omega

/-- RET pops, or faults on an empty stack (R121). -/
theorem execRet_effect {s t : State} (h : execRet s = .next t) : ExecEffect (.instr .ret) s t := by
  unfold execRet at h
  split at h
  · exact .of_raise h nofun
  · next a rest top => cases h; exact .returns a rest rfl top

/-- CALL pushes, or faults on a full stack (R124). -/
theorem execCall_effect {nnn : Addr12} {s t : State} (h : execCall nnn s = .next t) :
    ExecEffect (.instr (.call nnn)) s t := by
  unfold execCall at h
  split at h
  · exact .of_raise h nofun
  · next room => cases h; exact .calls nnn rfl (mt (stackFull_iff s).mpr room)

/-- SKP and SKNP skip or not, or fault on the key's number (R220, R221). -/
theorem execSkp_effect {d : Decoded} {x : Reg} {s t : State} (h : execSkp x s = .next t) :
    ExecEffect d s t := by
  unfold execSkp at h
  split at h
  · exact .of_raise h nofun
  · cases h; exact .of_skipIf ..

theorem execSknp_effect {d : Decoded} {x : Reg} {s t : State} (h : execSknp x s = .next t) :
    ExecEffect d s t := by
  unfold execSknp at h
  split at h
  · exact .of_raise h nofun
  · cases h; exact .of_skipIf ..

/-- LD Vx, K writes Vx, or waits (R223). -/
theorem execLdVxK_effect {x : Reg} {s t : State} (h : execLdVxK x s = .next t) :
    ExecEffect (.instr (.ldVxK x)) s t := by
  unfold execLdVxK at h
  split at h <;> cases h
  · exact .of_setReg rfl _
  · exact .waits x rfl

/-- LD B writes three bytes inside memory (R251). -/
theorem execLdB_effect {x : Reg} {s t : State} (h : execLdB x s = .next t) :
    ExecEffect (.instr (.ldB x)) s t :=
  .of_withBytesAtI h fun inside =>
    .stores (bcdDigits (s.reg x)) ⟨x, .inl rfl⟩ (inside.resolve_left nofun)

/-- LD [I], Vx writes `last + 1` bytes inside memory (R253). -/
theorem execStoreRegs_effect {x : Reg} {s t : State} (h : execStoreRegs x s = .next t) :
    ExecEffect (.instr (.storeRegs x)) s t :=
  .of_withBytesAtI h fun inside =>
    .stores _ ⟨x, .inr rfl⟩ <|
      (Nat.add_le_add_left (List.length_take_le ..) _).trans (inside.resolve_left nofun)

/-- LD Vx, [I] writes V0 to V(last) alone (R254). -/
theorem execLoadRegs_effect {x : Reg} {s t : State} (h : execLoadRegs x s = .next t) :
    ExecEffect (.instr (.loadRegs x)) s t := by
  refine .of_withBytesAtI h fun _ => .writesRegs ⟨fun r hr => ?_, fun _ => rfl, rfl⟩
  have above : ¬ r.val < lastReg s.cfg.lsRange x + 1 := by
    simpa [writtenRegs, Nat.lt_succ_iff] using hr
  exact (reg_loadedRegs s _ r).trans (if_neg above)

/-- Everything one instruction can do. -/
theorem exec_effect {i : Instr} {s t : State} (h : exec i s = .next t) :
    ExecEffect (.instr i) s t := by
  cases i with
  | cls => cases h; exact .clears rfl
  | ret => exact execRet_effect h
  | sys => cases h; exact .reports _
  | jp nnn => cases h; exact .jumps _ (.inr (.inr (toNat_addrOperand_le nnn)))
  | call => exact execCall_effect h
  | seImm | sneImm | seReg | sneReg => cases h; exact .of_skipIf ..
  | ldImm | addImm | ldReg | orReg | andReg | xorReg | ldVxDt => cases h; exact .of_setReg rfl _
  | addReg | subReg | shr | subnReg | shl => cases h; exact .of_setRegFlag rfl _ _
  | ldI nnn => cases h; exact .setsI _ (.inl ⟨nnn, rfl⟩)
  | jpV0 nnn => cases h; exact .jumps _ (.inr (.inr (toNat_addrOperand_add_byteOperand_le nnn _)))
  | rnd x nn => cases h; exact .draws x nn rfl
  | drw x y n => exact .of_withBytesAtI h fun _ => .composes x y n rfl ..
  | skp => exact execSkp_effect h
  | sknp => exact execSknp_effect h
  | ldVxK => exact execLdVxK_effect h
  | ldDtVx x => cases h; exact .setsDt x rfl
  | ldStVx x => cases h; exact .setsSt x rfl
  | addI x => cases h; exact .setsI _ (.inr ⟨x, .inl rfl⟩)
  | ldF x => cases h; exact .setsI _ (.inr ⟨x, .inr rfl⟩)
  | ldB => exact execLdB_effect h
  | storeRegs => exact execStoreRegs_effect h
  | loadRegs => exact execLoadRegs_effect h

/-- Everything a decoded word can do. -/
theorem execDecoded_effect {d : Decoded} {s t : State} (h : execDecoded d s = .next t) :
    ExecEffect d s t := by
  cases d with
  | instr => exact exec_effect h
  | unknown => cases h; exact .reports _

end Sys2Proof.Machine
end

section
/-! SUPPORT. Every transaction keeps the invariant (spec/10_state.md R24, R27, R35; spec/60_exceptions.md
R272). -/

namespace Sys2Proof.Machine

/-- While not halted, the invariant is about memory, `pc` and the stack alone: a state with the status
registers and parameters of one that meets it meets it where those three do. -/
theorem Inv.of_running {s t : State} (inv : Inv s) (running : s.halted = false)
    (status : t = { t with halted := s.halted, faultCode := s.faultCode, faultPc := s.faultPc,
                           faultAddr := s.faultAddr, faultOp := s.faultOp, cfg := s.cfg })
    (memWf : Memory.wf s.cfg.font t.mem) (pcMax : t.pc.toNat ≤ 0x10FE)
    (stackRange : ∀ a ∈ t.stack, 2 ≤ a.toNat ∧ a.toNat ≤ 0x1000)
    (stackDepth : ∀ d, s.cfg.stackDepth = some d → t.stack.length ≤ d) : Inv t := by
  rw [status]
  exact
    { memWf, pcMax, stackRange, stackDepth
      haltedCode := inv.haltedCode
      haltedPc := fun h => absurd (running.symm.trans h) nofun
      haltedNotWaiting := fun h => absurd (running.symm.trans h) nofun
      noFaultZero := inv.noFaultZero }

/-- While not halted, any `pc` up to 0x10FE meets the invariant (R24). -/
theorem Inv.setPc {s : State} (inv : Inv s) (running : s.halted = false) {a : Word}
    (ha : a.toNat ≤ 0x10FE) : Inv (s.setPc a) :=
  inv.of_running running rfl inv.memWf ha inv.stackRange inv.stackDepth

/-- A fault entry from a state that is not waiting keeps the invariant (R272). -/
theorem FaultEntered.inv {s t : State} {code : FaultCode} {addr op : Word}
    (h : FaultEntered code addr op s t) (real : code ≠ .noFault) (inv : Inv s)
    (awake : s.waiting = false) : Inv t := by
  obtain ⟨halted, codeEq, pcEq, -, -, -, e⟩ := h
  rw [e, halted, codeEq, pcEq]
  exact
    { memWf := inv.memWf
      pcMax := inv.pcMax
      stackRange := inv.stackRange
      stackDepth := inv.stackDepth
      haltedCode := iff_of_true rfl real
      haltedPc := fun _ => rfl
      haltedNotWaiting := fun _ => awake
      noFaultZero := nofun }

/-- A push on a stack that is not full stays within STACK_DEPTH (R27). -/
theorem Inv.length_push_le {s : State} (inv : Inv s) (room : s.cfg.stackDepth ≠ some s.stack.length)
    {d : Nat} (hd : s.cfg.stackDepth = some d) : s.stack.length + 1 ≤ d :=
  Nat.lt_of_le_of_ne (inv.stackDepth d hd) fun full => room (hd.trans (congrArg some full.symm))

/-- What executes from a state a fetch left, its `pc` in 0x002 to 0x1000, keeps the invariant. -/
theorem ExecEffect.inv {d : Decoded} {s t : State} (effect : ExecEffect d s t) (inv : Inv s)
    (running : s.halted = false) (awake : s.waiting = false) (low : 2 ≤ s.pc.toNat)
    (high : s.pc.toNat ≤ 0x1000) : Inv t := by
  cases effect with
  | faults entered real =>
    have back : (s.pc - 2).toNat ≤ 0x10FE := by bv_omega
    exact entered.inv real (inv.setPc running back) awake
  | jumps a range =>
    refine inv.setPc running ?_
    rcases range with rfl | rfl | ha
    · omega
    · bv_omega
    · exact ha
  | returns a rest _ top =>
    have ha := inv.stackRange a (top ▸ List.mem_cons_self)
    refine inv.of_running running rfl inv.memWf (ha.2.trans (by decide))
      (fun b hb => inv.stackRange b (top ▸ List.mem_cons_of_mem a hb)) fun depth hd => ?_
    have := inv.stackDepth depth hd
    simp only [top, List.length_cons] at this
    exact Nat.le_of_succ_le this
  | calls nnn _ room =>
    refine inv.of_running running rfl inv.memWf (toNat_addrOperand_le nnn) ?_
      fun _ => inv.length_push_le room
    exact List.forall_mem_cons.mpr ⟨⟨low, high⟩, inv.stackRange⟩
  | writesRegs change =>
    rw [change.2.2]
    exact inv.of_running running rfl inv.memWf inv.pcMax inv.stackRange inv.stackDepth
  | stores bs _ inside =>
    exact inv.of_running running rfl (Memory.wf_writeBytes _ inv.memWf inside) inv.pcMax
      inv.stackRange inv.stackDepth
  | reports | clears | draws | composes | setsI | setsDt | setsSt | waits =>
    exact inv.of_running running rfl inv.memWf inv.pcMax inv.stackRange inv.stackDepth

/-- A STEP in the awaiting-key sub-state keeps the invariant (R224). -/
theorem inv_awaitKey {s : State} (inv : Inv s) (running : s.halted = false) : Inv (awaitKey s) := by
  unfold awaitKey
  split
  · exact inv.of_running running rfl inv.memWf inv.pcMax inv.stackRange inv.stackDepth
  · exact inv

/-- A STEP keeps the invariant. -/
theorem inv_step {s t : State} (inv : Inv s) (h : step s = .next t) : Inv t := by
  rcases step_cases h with ⟨-, rfl⟩ | ⟨running, -, rfl⟩ | ⟨-, awake, code, real, -, rfl⟩ |
    ⟨⟨running, awake, inRange, -⟩, h⟩
  · exact inv
  · exact inv_awaitKey inv running
  · exact (enterFault_faultEntered ..).inv real inv awake
  · have low : 2 ≤ (s.pc + 2).toNat := by bv_omega
    have high : (s.pc + 2).toNat ≤ 0x1000 := by bv_omega
    have fetched : Inv (afterFetch s) := inv.setPc running (high.trans (by decide))
    exact (execDecoded_effect h).inv fetched running awake low high

/-- Settles O57: the invariant after each of the four things a STEP can do. -/
theorem stepKeepsTheInvariant : Obligations.StepKeepsTheInvariant :=
  fun _ _ inv h => inv_step inv h

/-- A RESET of an image that fits puts the core in a state that meets the invariant, whatever it was
before (R310). -/
theorem inv_resetWith {image : List Byte} (fits : image.length ≤ maxImage) (s : State) :
    Inv (resetWith image s) where
  memWf := Memory.wf_writeBytes _ (Memory.wf_nil _) (Nat.add_le_add_left fits programBase)
  pcMax := show (0x200 : Word).toNat ≤ 0x10FE by decide
  stackRange := nofun
  stackDepth := fun d _ => Nat.zero_le d
  haltedCode := iff_of_false nofun fun h => h rfl
  haltedPc := nofun
  haltedNotWaiting := nofun
  noFaultZero := fun _ => ⟨rfl, rfl, rfl⟩

/-- TICK and KEY keep the invariant: halted they change nothing, else none of what it speaks of
(R273). -/
theorem inv_tick {s : State} (inv : Inv s) : Inv (tick s) := by
  unfold tick
  split
  · exact inv
  · next running =>
    exact inv.of_running (eq_false_of_ne_true running) rfl inv.memWf inv.pcMax inv.stackRange
      inv.stackDepth

theorem inv_setKey {s : State} (inv : Inv s) (k : Key) (pressed : Bool) :
    Inv (setKey k pressed s) := by
  unfold setKey
  split
  · exact inv
  · next running =>
    exact inv.of_running (eq_false_of_ne_true running) rfl inv.memWf inv.pcMax inv.stackRange
      inv.stackDepth

/-- A RESET that is not refused: its image fits, and the state is the reset state with it (R311). -/
theorem transact_reset_next {image : List Byte} {s t : State}
    (h : transact (.reset image) s = .next t) : image.length ≤ maxImage ∧ t = resetWith image s := by
  by_cases fits : image.length ≤ maxImage
  · have e : transact (.reset image) s = .next (resetWith image s) := if_pos fits
    cases e.symm.trans h
    exact ⟨fits, rfl⟩
  · have e : transact (.reset image) s = .refused .imageTooLong := if_neg fits
    cases e.symm.trans h

/-- Every transaction keeps the invariant (R40). -/
theorem inv_transact {s t : State} (inv : Inv s) {tr : Transaction} (h : transact tr s = .next t) :
    Inv t := by
  cases tr with
  | reset image =>
    obtain ⟨fits, rfl⟩ := transact_reset_next h
    exact inv_resetWith fits s
  | step => exact inv_step inv h
  | tick => cases h; exact inv_tick inv
  | key k pressed => cases h; exact inv_setKey inv k pressed

/-- Settles O58, by induction on the schedule. -/
theorem reachableStatesMeetTheInvariant : Obligations.ReachableStatesMeetTheInvariant := by
  intro s reachable
  induction reachable with
  | first cfg image fits => exact inv_resetWith fits _
  | more tr _ h inv => exact inv_transact inv h

end Sys2Proof.Machine
end

section
/-! SUPPORT. The writers of each state and of VF (spec/10_state.md R21, R22, R25 to R32). -/

namespace Sys2Proof.Machine

/-- The frame of a fault entry (R272). -/
theorem FaultEntered.frame {s t : State} {code : FaultCode} {addr op : Word}
    (h : FaultEntered code addr op s t) :
    t = { s with halted := t.halted, faultCode := t.faultCode, faultPc := t.faultPc,
                 faultAddr := t.faultAddr, faultOp := t.faultOp, events := t.events } := by
  obtain ⟨-, -, -, -, -, -, e⟩ := h
  exact e

/-- The frame of a register write. -/
theorem OnlyRegsChange.frame {xs : List Reg} {s t : State} (h : OnlyRegsChange xs s t) :
    t = { s with v := t.v } := h.2.2

section Writers

variable {d : Decoded} {s t : State} (effect : ExecEffect d s t)

include effect

/-- The writers of `I` (R25). -/
theorem ExecEffect.i_eq_or : t.i = s.i ∨ (∃ nnn, d = .instr (.ldI nnn)) ∨
    ∃ x, d = .instr (.addI x) ∨ d = .instr (.ldF x) := by
  cases effect with
  | setsI _ hd => exact .inr hd
  | faults entered => exact .inl (congrArg State.i entered.frame :)
  | writesRegs change => exact .inl (congrArg State.i change.frame :)
  | _ => exact .inl rfl

/-- The writers of the stack (R26, R27). -/
theorem ExecEffect.stack_eq_or :
    t.stack = s.stack ∨ d = .instr .ret ∨ ∃ nnn, d = .instr (.call nnn) := by
  cases effect with
  | returns _ _ hd => exact .inr (.inl hd)
  | calls nnn hd => exact .inr (.inr ⟨nnn, hd⟩)
  | faults entered => exact .inl (congrArg State.stack entered.frame :)
  | writesRegs change => exact .inl (congrArg State.stack change.frame :)
  | _ => exact .inl rfl

/-- The writer of the delay timer (R28). -/
theorem ExecEffect.dt_eq_or : t.dt = s.dt ∨ ∃ x, d = .instr (.ldDtVx x) := by
  cases effect with
  | setsDt x hd => exact .inr ⟨x, hd⟩
  | faults entered => exact .inl (congrArg State.dt entered.frame :)
  | writesRegs change => exact .inl (congrArg State.dt change.frame :)
  | _ => exact .inl rfl

/-- The writer of the sound timer (R28). -/
theorem ExecEffect.st_eq_or : t.st = s.st ∨ ∃ x, d = .instr (.ldStVx x) := by
  cases effect with
  | setsSt x hd => exact .inr ⟨x, hd⟩
  | faults entered => exact .inl (congrArg State.st entered.frame :)
  | writesRegs change => exact .inl (congrArg State.st change.frame :)
  | _ => exact .inl rfl

/-- The writers of memory (R61). -/
theorem ExecEffect.mem_eq_or :
    t.mem = s.mem ∨ ∃ x, d = .instr (.ldB x) ∨ d = .instr (.storeRegs x) := by
  cases effect with
  | stores _ hd => exact .inr hd
  | faults entered => exact .inl (congrArg State.mem entered.frame :)
  | writesRegs change => exact .inl (congrArg State.mem change.frame :)
  | _ => exact .inl rfl

/-- The writer of the wait fields (R32). -/
theorem ExecEffect.wait_eq_or :
    (t.waiting = s.waiting ∧ t.waitX = s.waitX) ∨ ∃ x, d = .instr (.ldVxK x) := by
  cases effect with
  | waits x hd => exact .inr ⟨x, hd⟩
  | faults entered =>
    exact .inl ⟨(congrArg State.waiting entered.frame :), (congrArg State.waitX entered.frame :)⟩
  | writesRegs change =>
    exact .inl ⟨(congrArg State.waiting change.frame :), (congrArg State.waitX change.frame :)⟩
  | _ => exact .inl ⟨rfl, rfl⟩

/-- The instruction that draws a random byte (R182). -/
theorem ExecEffect.rndDraws_eq_or : t.rndDraws = s.rndDraws ∨ ∃ x nn, d = .instr (.rnd x nn) := by
  cases effect with
  | draws x nn hd => exact .inr ⟨x, nn, hd⟩
  | faults entered => exact .inl (congrArg State.rndDraws entered.frame :)
  | writesRegs change => exact .inl (congrArg State.rndDraws change.frame :)
  | _ => exact .inl rfl

/-- Nothing that executes writes the keys or the parameters (R11, R29). -/
theorem ExecEffect.keys_cfg_eq : t.keys = s.keys ∧ t.cfg = s.cfg := by
  cases effect with
  | faults entered => exact ⟨(congrArg State.keys entered.frame :), (congrArg State.cfg entered.frame :)⟩
  | writesRegs change => exact ⟨(congrArg State.keys change.frame :), (congrArg State.cfg change.frame :)⟩
  | _ => exact ⟨rfl, rfl⟩

/-- A register that is no destination of the word keeps its value (R22). -/
theorem ExecEffect.reg_eq {r : Reg} (hr : r ∉ writtenRegs s d) : t.reg r = s.reg r := by
  cases effect with
  | faults entered => exact State.reg_congr s t (congrArg State.v entered.frame :) r
  | writesRegs change => exact change.1 r hr
  | draws x nn hd =>
    subst hd
    exact (State.reg_setReg ..).trans (if_neg (List.mem_singleton.not.mp hr))
  | composes x y n hd =>
    subst hd
    exact (reg_drawSprite ..).trans (if_neg (List.mem_singleton.not.mp hr))
  | _ => rfl

end Writers

/-- Settles O59: the writers of each state, from what the fetched word can do. -/
theorem eachStateHasItsWriters : Obligations.EachStateHasItsWriters := by
  intro s t d fetches word h
  subst word
  rw [step_of_fetches fetches] at h
  have effect := execDecoded_effect h
  exact ⟨effect.i_eq_or.resolve_left, effect.stack_eq_or.resolve_left,
    effect.dt_eq_or.resolve_left, effect.st_eq_or.resolve_left, effect.mem_eq_or.resolve_left,
    fun changed => effect.wait_eq_or.resolve_left fun same =>
      changed.elim (absurd same.1) (absurd same.2),
    effect.rndDraws_eq_or.resolve_left, effect.keys_cfg_eq⟩

/-- A block load reaches VF under LS_RANGE = ALL, or with x = F (R255). -/
theorem regVF_mem_writtenRegs_loadRegs {s : State} {x : Reg}
    (h : regVF ∈ writtenRegs s (.instr (.loadRegs x))) : s.cfg.lsRange = .all ∨ x = regVF := by
  have reached : 15 ≤ lastReg s.cfg.lsRange x := by simpa [writtenRegs] using h
  rw [lastReg_eq] at reached
  split at reached
  · next all => exact .inl all
  · exact .inr (Fin.ext (Nat.le_antisymm (Nat.le_of_lt_succ x.isLt) reached))

/-- Settles O26: VF is among the destinations of these instructions alone. -/
theorem vfHasNoOtherWriter : Obligations.VfHasNoOtherWriter := by
  intro s t i h changed
  have written : regVF ∈ writtenRegs s (.instr i) :=
    Decidable.of_not_not fun hr => changed ((exec_effect h).reg_eq hr)
  cases i with
  | addReg x y => exact .inl ⟨x, y, .inl rfl⟩
  | subReg x y => exact .inl ⟨x, y, .inr (.inl rfl)⟩
  | shr x y => exact .inl ⟨x, y, .inr (.inr (.inl rfl))⟩
  | subnReg x y => exact .inl ⟨x, y, .inr (.inr (.inr (.inl rfl)))⟩
  | shl x y => exact .inl ⟨x, y, .inr (.inr (.inr (.inr rfl)))⟩
  | drw x y n => exact .inr (.inl ⟨x, y, n, rfl⟩)
  | loadRegs x => exact .inr (.inr (.inl ⟨x, rfl, regVF_mem_writtenRegs_loadRegs written⟩))
  | ldImm | addImm | rnd | ldReg | orReg | andReg | xorReg | ldVxDt | ldVxK =>
    cases List.mem_singleton.mp written
    simp
  | _ => cases written

end Sys2Proof.Machine
end

section
/-! SUPPORT. What no instruction reads: the sound timer, the status registers, the wait fields and the
event stream (spec/10_state.md R28, R34). -/

namespace Sys2Proof.Machine

/-- `s` with the sound timer, the status registers, the wait fields and the event stream of `o`. -/
def State.withStatusOf (s o : State) : State :=
  { s with st := o.st, halted := o.halted, faultCode := o.faultCode, faultPc := o.faultPc,
           faultAddr := o.faultAddr, faultOp := o.faultOp, waiting := o.waiting, waitX := o.waitX,
           events := o.events }

/-- Where the first outcome is a next state, the second is one that differs from it in the status
alone. -/
def SameUpToStatus (r r' : Result) : Prop :=
  ∀ t, r = .next t → ∃ t', r' = .next t' ∧ t' = t.withStatusOf t'

theorem SameUpToStatus.next {t t' : State} (h : t' = t.withStatusOf t') :
    SameUpToStatus (.next t) (.next t') := by
  intro u hu
  cases hu
  exact ⟨t', rfl, h⟩

/-- A fault entry puts `pc` back and writes the status (R272). -/
theorem sameUpToStatus_raise {code : FaultCode} {addr op : Word} {s o : State} :
    SameUpToStatus (raise code addr op s) (raise code addr op (s.withStatusOf o)) :=
  .next rfl

/-- A skip writes `pc` (R131). -/
theorem sameUpToStatus_skipIf (c : Bool) (s o : State) :
    SameUpToStatus (.next (s.skipIf c)) (.next ((s.withStatusOf o).skipIf c)) := by
  cases c <;> exact .next rfl

/-- A checked access reads `I` for its check (R62), so it differs no more than its effect does. -/
theorem sameUpToStatus_withBytesAtI (n : Nat) (op : Word) (s o : State) {effect effect' : State → State}
    (h : effect' (s.withStatusOf o) = (effect s).withStatusOf (effect' (s.withStatusOf o))) :
    SameUpToStatus (withBytesAtI n op s effect) (withBytesAtI n op (s.withStatusOf o) effect') := by
  unfold withBytesAtI
  have check : firstOutOfRange (s.withStatusOf o).i.toNat n = firstOutOfRange s.i.toNat n := rfl
  rw [check]
  cases firstOutOfRange s.i.toNat n with
  | none => exact .next h
  | some a => exact sameUpToStatus_raise

/-- The draw loops read the framebuffer, `I` and memory (R190). -/
theorem drawRows_withStatusOf (s o : State) (x0 y0 k : Nat) :
    drawRows (s.withStatusOf o) x0 y0 k = drawRows s x0 y0 k := by
  induction k with
  | zero => rfl
  | succ k ih => simp only [drawRows, ih]; rfl

/-- A draw is the same up to the status, into which its event goes. -/
theorem drawSprite_withStatusOf (s o : State) (x0 y0 rows : Nat) :
    drawSprite x0 y0 rows (s.withStatusOf o) =
      (drawSprite x0 y0 rows s).withStatusOf (drawSprite x0 y0 rows (s.withStatusOf o)) := by
  simp only [drawSprite, drawRows_withStatusOf]
  rfl

/-- A block load reads the registers, `I` and memory (R254). -/
theorem loadedRegs_withStatusOf (s o : State) (k : Nat) :
    loadedRegs (s.withStatusOf o) k = loadedRegs s k := by
  induction k with
  | zero => rfl
  | succ k ih => simp only [loadedRegs, ih]; rfl

theorem readRegs_withStatusOf (s o : State) (count : Nat) :
    readRegs count (s.withStatusOf o) =
      (readRegs count s).withStatusOf (readRegs count (s.withStatusOf o)) := by
  simp only [readRegs, loadedRegs_withStatusOf]
  rfl

/-- RET reads the stack (R121). -/
theorem sameUpToStatus_execRet (s o : State) :
    SameUpToStatus (execRet s) (execRet (s.withStatusOf o)) := by
  have same : (s.withStatusOf o).stack = s.stack := rfl
  unfold execRet
  rw [same]
  cases s.stack with
  | nil => exact sameUpToStatus_raise
  | cons a rest => exact .next rfl

/-- CALL reads the stack and STACK_DEPTH (R124). -/
theorem sameUpToStatus_execCall (nnn : Addr12) (s o : State) :
    SameUpToStatus (execCall nnn s) (execCall nnn (s.withStatusOf o)) := by
  have same : (s.withStatusOf o).stackFull = s.stackFull := rfl
  unfold execCall
  rw [same]
  split
  · exact sameUpToStatus_raise
  · exact .next rfl

/-- The key skips read Vx, the keys and KEY_INDEX_POLICY (R220, R221). -/
theorem sameUpToStatus_keySkips (x : Reg) (s o : State) :
    SameUpToStatus (execSkp x s) (execSkp x (s.withStatusOf o)) ∧
    SameUpToStatus (execSknp x s) (execSknp x (s.withStatusOf o)) := by
  have same : keyIndex (s.withStatusOf o).cfg.keyIndexPolicy ((s.withStatusOf o).reg x) =
    keyIndex s.cfg.keyIndexPolicy (s.reg x) := rfl
  unfold execSkp execSknp
  rw [same]
  cases keyIndex s.cfg.keyIndexPolicy (s.reg x) with
  | none => exact ⟨sameUpToStatus_raise, sameUpToStatus_raise⟩
  | some k => exact ⟨sameUpToStatus_skipIf (s.key k) s o, sameUpToStatus_skipIf (!s.key k) s o⟩

/-- LD Vx, K reads the keys (R223). -/
theorem sameUpToStatus_execLdVxK (x : Reg) (s o : State) :
    SameUpToStatus (execLdVxK x s) (execLdVxK x (s.withStatusOf o)) := by
  have same : (s.withStatusOf o).someKey = s.someKey := rfl
  unfold execLdVxK
  rw [same]
  split <;> exact .next rfl

/-- No instruction reads the status: from states that differ only in it, next states that differ only in
it. -/
theorem exec_withStatusOf (i : Instr) (s o : State) :
    SameUpToStatus (exec i s) (exec i (s.withStatusOf o)) := by
  cases i with
  | ret => exact sameUpToStatus_execRet s o
  | call nnn => exact sameUpToStatus_execCall nnn s o
  | seImm x nn => exact sameUpToStatus_skipIf (s.reg x == nn) s o
  | sneImm x nn => exact sameUpToStatus_skipIf (s.reg x != nn) s o
  | seReg x y => exact sameUpToStatus_skipIf (s.reg x == s.reg y) s o
  | sneReg x y => exact sameUpToStatus_skipIf (s.reg x != s.reg y) s o
  | skp x => exact (sameUpToStatus_keySkips x s o).1
  | sknp x => exact (sameUpToStatus_keySkips x s o).2
  | ldVxK x => exact sameUpToStatus_execLdVxK x s o
  | drw => exact sameUpToStatus_withBytesAtI _ _ s o (drawSprite_withStatusOf ..)
  | loadRegs => exact sameUpToStatus_withBytesAtI _ _ s o (readRegs_withStatusOf ..)
  | ldB | storeRegs => exact sameUpToStatus_withBytesAtI _ _ s o rfl
  | _ => exact .next rfl

/-- Settles O60: the fields it compares are none of the status. -/
theorem noInstructionReadsStatusOrSoundTimer :
    Obligations.NoInstructionReadsStatusOrSoundTimer := by
  intro i s s' t differ h
  obtain ⟨t', answer, same⟩ := exec_withStatusOf i s s' t h
  have e : s' = s.withStatusOf s' := differ
  refine ⟨t', e ▸ answer, ?_⟩
  rw [same]
  exact ⟨rfl, rfl, rfl, rfl, rfl, rfl, rfl, rfl⟩

end Sys2Proof.Machine
end

section
/-! SUPPORT. The fetch of a word given by its bytes (spec/20_memory.md R70), the key transaction, the
packed status word and the command port (spec/10_state.md R35, R43, R47). -/

namespace Sys2Proof.Machine

/-- Settles O8: the fetched word is the number its two bytes make. -/
theorem stepRunsTheDecodedInstruction : Obligations.StepRunsTheDecodedInstruction := by
  intro s op i fetches bytes decoded
  have word : fetchedWord s = op :=
    BitVec.eq_of_toNat_eq ((toNat_wordAt s s.pc.toNat).trans bytes.symm)
  rw [step_of_fetches fetches, word, decoded]
  rfl

/-- The key snapshot after KEY(k, pressed), while not halted (R43). -/
theorem key_setKey {s : State} (running : s.halted = false) (k j : Key) (pressed : Bool) :
    (setKey k pressed s).key j = if j = k then pressed else s.key j := by
  unfold setKey
  rw [running]
  simp only [State.key, Bool.false_eq_true, if_false, Vector.getElem_set, Fin.ext_iff,
    eq_comm (a := k.val)]

/-- KEY writes the snapshot alone (R43). -/
theorem setKey_frame (s : State) (k : Key) (pressed : Bool) :
    setKey k pressed s = { s with keys := (setKey k pressed s).keys } := by
  unfold setKey
  split <;> rfl

/-- Settles O36: the key read back, the other keys, and the frame. -/
theorem keyTransactionSetsOneKey : Obligations.KeyTransactionSetsOneKey := by
  intro s k pressed
  refine ⟨fun halted => congrArg Host.Outcome.next (if_pos halted), fun running => ?_⟩
  exact ⟨setKey k pressed s, rfl, (key_setKey running k k pressed).trans (if_pos rfl),
    fun j hj => (key_setKey running k j pressed).trans (if_neg hj), setKey_frame s k pressed⟩

theorem toNat_statusBit (b : Bool) : (statusBit b).toNat = b.toNat := by
  cases b <;> rfl

/-- Bits put side by side, as a number. -/
theorem toNat_append_eq_add {v w : Nat} (a : BitVec v) (b : BitVec w) :
    (a ++ b).toNat = a.toNat * 2 ^ w + b.toNat := by
  rw [BitVec.toNat_append, ← Nat.shiftLeft_add_eq_or_of_lt b.isLt, Nat.shiftLeft_eq]

/-- The packed status word as a number (R35). -/
theorem toNat_statusWord (s : State) :
    (statusWord s).toNat =
      s.faultCode.bits.toNat * 256 + s.waitX.val * 16 + s.waiting.toNat * 2 + s.halted.toNat := by
  simp only [statusWord, toNat_append_eq_add, toNat_statusBit, toNat_nibbleOfReg,
    BitVec.ofNat_eq_ofNat, BitVec.toNat_ofNat, Nat.zero_mod]
  omega

/-- The four lowest bits of the packed status word (R35). -/
theorem statusWord_lowBits (s : State) :
    (statusWord s).getLsbD 0 = s.halted ∧ (statusWord s).getLsbD 1 = s.waiting ∧
    (statusWord s).getLsbD 2 = false ∧ (statusWord s).getLsbD 3 = false := by
  have bit : ∀ b, (statusBit b)[0] = b := by decide
  simp only [statusWord, BitVec.getLsbD_append]
  simp [bit]

/-- Settles O51: the four lowest bits, and the fields above them by arithmetic on the word. -/
theorem statusWordPacksTheFields : Obligations.StatusWordPacksTheFields := by
  intro s
  obtain ⟨bit0, bit1, bit2, bit3⟩ := statusWord_lowBits s
  have hx := s.waitX.isLt
  have hb := s.faultCode.bits.isLt
  have hw := Bool.toNat_lt s.waiting
  have hh := Bool.toNat_lt s.halted
  rw [toNat_statusWord]
  refine ⟨bit0, bit1, bit2, bit3, by omega, ?_, by omega⟩
  trans s.faultCode.bits.toNat
  · omega
  · cases s.faultCode <;> rfl

/-- The commands of a schedule, the first on its own (R47). -/
theorem runCommands_cons {c : Command} {p q : Port} (h : command c p = .next q) (cs : List Command) :
    runCommands (c :: cs) p = runCommands cs q := by
  simp only [runCommands, h]

theorem runCommands_append {cs : List Command} {p q : Port} (h : runCommands cs p = .next q)
    (ds : List Command) : runCommands (cs ++ ds) p = runCommands ds q := by
  induction cs generalizing p with
  | nil => cases h; rfl
  | cons c cs ih =>
    simp only [List.cons_append, runCommands] at h ⊢
    cases e : command c p with
    | next p' => rw [e] at h; exact ih h
    | fault | refused => rw [e] at h; cases h

/-- A LOAD_BYTE on an open port, inside memory, writes its byte (R47). -/
theorem loadByte_accepted {p : Port} (isOpen : p.loadOpen = true) {off : Addr12}
    (inside : 0x200 + off.toNat ≤ 0xFFF) (b : Byte) :
    loadByte off b p = { p with core := p.core.setByte (0x200 + off.toNat) b } := by
  simp [loadByte, programBase, isOpen, inside]

/-- A LOAD_BYTE on a closed port, or beyond memory, is ignored (R47). -/
theorem loadByte_ignored {p : Port} {off : Addr12}
    (h : p.loadOpen = false ∨ 0x200 + off.toNat > 0xFFF) (b : Byte) : loadByte off b p = p := by
  unfold loadByte
  rw [if_neg]
  simp only [Bool.and_eq_true, decide_eq_true_eq]
  rintro ⟨isOpen, inside⟩
  rcases h with closed | outside
  · cases closed.symm.trans isOpen
  · exact absurd inside (Nat.not_le.mpr outside)

/-- LOAD_BYTEs of consecutive offsets write their bytes in address order. -/
theorem runCommands_loadBytes (image : List Byte) (k : Nat) (s : State)
    (fits : k + image.length ≤ 3584) :
    runCommands (image.mapIdx fun j b => .loadByte (BitVec.ofNat 12 (k + j)) b)
        { core := s, loadOpen := true } =
      .next { core := { s with mem := Memory.writeBytes s.cfg.font s.mem (0x200 + k) image },
              loadOpen := true } := by
  induction image generalizing k s with
  | nil => rfl
  | cons b image ih =>
    rw [List.length_cons] at fits
    have off : (BitVec.ofNat 12 k).toNat = k := Nat.mod_eq_of_lt (by omega)
    have first : command (.loadByte (BitVec.ofNat 12 k) b) { core := s, loadOpen := true } =
        .next { core := s.setByte (0x200 + k) b, loadOpen := true } := by
      rw [command, loadByte_accepted rfl (by omega), off]
    rw [List.mapIdx_cons, Nat.add_zero, runCommands_cons first]
    have rest := ih (k + 1) (s.setByte (0x200 + k) b) (by omega)
    simp only [Nat.add_assoc, Nat.add_comm 1] at rest
    exact rest

/-- LOAD_BYTE leaves its own acceptance as it is. -/
theorem loadOpen_loadByte (off : Addr12) (b : Byte) (p : Port) :
    (loadByte off b p).loadOpen = p.loadOpen := by
  unfold loadByte
  split <;> rfl

theorem loadOpen_onPort {b : Bool} {r : Result} {q : Port} (h : onPort b r = .next q) :
    q.loadOpen = b := by
  cases r with
  | next => cases h; rfl
  | fault | refused => cases h

/-- What a command does to the acceptance of LOAD_BYTE (R47). -/
theorem loadOpen_command {c : Command} {p q : Port} (h : command c p = .next q) :
    (c = .reset → q.loadOpen = true) ∧ (c = .step → q.loadOpen = false) ∧
      (c ≠ .reset → c ≠ .step → q.loadOpen = p.loadOpen) := by
  simp only [command] at h
  cases c with
  | reset => exact ⟨fun _ => loadOpen_onPort h, nofun, fun hc => absurd rfl hc⟩
  | step => exact ⟨nofun, fun _ => loadOpen_onPort h, fun _ hc => absurd rfl hc⟩
  | tick | key => exact ⟨nofun, nofun, fun _ _ => loadOpen_onPort h⟩
  | noCommand => cases h; exact ⟨nofun, nofun, fun _ _ => rfl⟩
  | loadByte off b => cases h; exact ⟨nofun, nofun, fun _ _ => loadOpen_loadByte off b p⟩

/-- The port's RESET has an empty image, which fits (R47, R311). -/
theorem command_reset (p : Port) :
    command .reset p = .next { core := resetWith [] p.core, loadOpen := true } := rfl

/-- RESET then a LOAD_BYTE of every byte of an image that fits is RESET(image) (R47). -/
theorem runCommands_reset_loadBytes {image : List Byte} (fits : image.length ≤ 3584) (p : Port) :
    runCommands (.reset :: image.mapIdx fun k b => .loadByte (BitVec.ofNat 12 k) b) p =
      .next { core := resetWith image p.core, loadOpen := true } := by
  have loads := runCommands_loadBytes image 0 (resetWith [] p.core) (by omega)
  simp only [Nat.zero_add] at loads
  rw [runCommands_cons (command_reset p), loads]
  rfl

/-- An accepted LOAD_BYTE writes its byte and nothing else (R47). -/
theorem command_loadByte_accepted {p : Port} (wf : Memory.wf p.core.cfg.font p.core.mem)
    (isOpen : p.loadOpen = true) {off : Addr12} (inside : 0x200 + off.toNat ≤ 0xFFF) (b : Byte) :
    ∃ q, command (.loadByte off b) p = .next q ∧ q.core.byteAt (0x200 + off.toNat) = b ∧
      OnlyBytesChange (0x200 + off.toNat) 1 p.core q.core := by
  refine ⟨_, congrArg Host.Outcome.next (loadByte_accepted isOpen inside b), ?_, fun _ => rfl, ?_, rfl⟩
  · exact (State.byteAt_setByte wf _ b _).trans (if_pos rfl)
  · intro a ha
    exact (State.byteAt_setByte wf _ b a).trans (if_neg (by omega))

/-- The command of one cycle's KEY request, if there is one. -/
def keyCommands : Option (Key × Bool) → List Command
  | some (k, pressed) => [.key k pressed]
  | none => []

/-- One cycle's commands without RESET (R47). -/
theorem cycleCommands_of_no_reset {q : Requests} (noReset : q.reset = false) :
    cycleCommands q = keyCommands q.key ++
      ((if q.tick then [.tick] else []) ++ (if q.step then [.step] else [])) := by
  rw [cycleCommands, noReset, ← List.append_assoc]
  cases q.key <;> rfl

/-- A request that may be absent: its command is performed, or nothing happens. -/
theorem runCommands_request {c : Command} {p q : Port} {requested : Bool}
    (absent : requested = false → q = p) (present : requested = true → command c p = .next q) :
    runCommands (if requested then [c] else []) p = .next q := by
  cases requested with
  | false => rw [absent rfl]; rfl
  | true => exact runCommands_cons (present rfl) []

theorem runCommands_keyCommands {p q : Port} {request : Option (Key × Bool)}
    (absent : request = none → q = p)
    (present : ∀ k pressed, request = some (k, pressed) → command (.key k pressed) p = .next q) :
    runCommands (keyCommands request) p = .next q := by
  cases request with
  | none => rw [absent rfl]; rfl
  | some r => exact runCommands_cons (present _ _ rfl) []

/-- Settles O54, clause by clause. -/
theorem commandPortLoadsTheImage : Obligations.CommandPortLoadsTheImage := by
  refine ⟨fun p image t fits h => ?_, fun p q c h => loadOpen_command h,
    fun p off b wf isOpen inside => command_loadByte_accepted wf isOpen inside b,
    fun p off b closed => congrArg Host.Outcome.next (loadByte_ignored (.inl closed) b),
    fun p off b outside => congrArg Host.Outcome.next (loadByte_ignored (.inr outside) b),
    fun p _ _ _ q noReset noKey key noTick tick noStep step => ?_, fun p q reset => ?_⟩
  · obtain ⟨-, rfl⟩ := transact_reset_next h
    exact runCommands_reset_loadBytes fits p
  · rw [cycle, cycleCommands_of_no_reset noReset,
      runCommands_append (runCommands_keyCommands noKey key),
      runCommands_append (runCommands_request noTick tick), runCommands_request noStep step]
  · rw [cycle, cycleCommands, if_pos reset, runCommands_cons (command_reset p), command_reset]
    rfl

end Sys2Proof.Machine
end

section
/-! SUPPORT. Memory as a function of its addresses, the three answers of a fetch, and a word that a store
or the host puts where the next fetch reads it (spec/20_memory.md R60, R64, R70 to R75). -/

namespace Sys2Proof.Machine

/-- Settles O44: the read after a write, and the canonical form after a write. -/
theorem writtenByteIsReadBack : Obligations.WrittenByteIsReadBack := by
  intro font m a b v wf inside
  exact ⟨(Memory.read_write font wf.1 a v a).trans (if_pos rfl),
    fun other => (Memory.read_write font wf.1 a v b).trans (if_neg other),
    Memory.wf_write font wf inside v⟩

/-- A listed cell reads as its byte. -/
theorem Memory.read_of_mem (font : Font) {m : Memory} (rising : m.Pairwise (fun p q => p.1 < q.1))
    {p : Host.Cell} (hp : p ∈ m) : Memory.read font m p.1 = p.2 := by
  induction m with
  | nil => cases hp
  | cons q m ih =>
    obtain ⟨above, rest⟩ := List.pairwise_cons.mp rising
    rcases List.mem_cons.mp hp with rfl | hp
    · exact if_pos rfl
    · exact (if_neg (above p hp).ne').trans (ih rest hp)

/-- An address that does not read as its reset contents is listed, with the byte it reads as. -/
theorem Memory.mem_of_read_ne (font : Font) {m : Memory} {a : Nat}
    (h : Memory.read font m a ≠ resetByte font a) : (a, Memory.read font m a) ∈ m := by
  induction m with
  | nil => exact absurd rfl h
  | cons q m ih =>
    rw [Memory.read] at h ⊢
    split at h
    · next here => rw [if_pos here, here]; exact List.mem_cons_self
    · next elsewhere => rw [if_neg elsewhere]; exact List.mem_cons_of_mem q (ih h)

/-- A cell of a canonical memory is listed by every memory that reads the same below 4096. -/
theorem Memory.mem_of_reads_eq {font : Font} {m m' : Memory} (wf : Memory.wf font m)
    (same : ∀ a < memSize, Memory.read font m a = Memory.read font m' a) {p : Host.Cell} (hp : p ∈ m) :
    p ∈ m' := by
  obtain ⟨inside, notReset⟩ := wf.2 p hp
  have byte : Memory.read font m' p.1 = p.2 :=
    (same p.1 inside).symm.trans (Memory.read_of_mem font wf.1 hp)
  have listed := Memory.mem_of_read_ne font (byte.trans_ne notReset)
  rwa [byte] at listed

/-- Settles O45: canonical memories that read the same list the same cells, in the same rising order. -/
theorem canonicalMemoryIsItsReads : Obligations.CanonicalMemoryIsItsReads := by
  intro font m m' wf wf' same
  have : Std.Irrefl fun p q : Host.Cell => p.1 < q.1 := ⟨fun p => lt_irrefl p.1⟩
  have : Std.Antisymm fun p q : Host.Cell => p.1 < q.1 := ⟨fun _ _ h h' => absurd h' h.asymm⟩
  exact wf.1.eq_of_mem_iff wf'.1 fun p => ⟨Memory.mem_of_reads_eq wf same,
    Memory.mem_of_reads_eq wf' fun a ha => (same a ha).symm⟩

/-- A STEP whose fetch faults enters that fault from `pc`, with FAULT_OP = 0 (R70, R71, R272). -/
theorem step_of_fetchFault {s : State} (running : s.halted = false) (awake : s.waiting = false)
    {code : FaultCode} (h : fetchFault s = some code) :
    ∃ t, step s = .next t ∧ FaultEntered code s.pc 0 s t := by
  refine ⟨_, ?_, enterFault_faultEntered s code s.pc 0⟩
  unfold step
  rw [running, awake, h]
  rfl

/-- Settles O10, by the three answers of the fetch's check. -/
theorem fetchReadsTheWordOrFaults : Obligations.FetchReadsTheWordOrFaults := by
  intro s running awake
  refine ⟨fun outside => step_of_fetchFault running awake (if_pos outside),
    fun inRange check odd => step_of_fetchFault running awake ?_, fun inRange aligned => ?_⟩
  · rcases fetchFault_cases s with ⟨outside, -⟩ | ⟨-, -, -, e⟩ | ⟨-, even, -⟩
    · omega
    · exact e
    · exact absurd ((even check).symm.trans odd) nofun
  · exact ⟨fetchedWord s, BitVec.extractLsb'_append_eq_left, BitVec.extractLsb'_append_eq_right,
      step_of_fetches ⟨running, awake, inRange, aligned⟩⟩

/-- A register store inside memory: the byte at `I + k` is Vk (R253, R64). -/
theorem byteAt_writeRegs {s : State} (wf : Memory.wf s.cfg.font s.mem) {count : Nat} {r : Reg}
    (hr : r.val < count) : (writeRegs count s).byteAt (s.i.toNat + r.val) = s.reg r := by
  have stored : r.val < (s.v.toList.take count).length := by
    have := r.isLt
    rw [List.length_take, Vector.length_toList]
    omega
  rw [writeRegs, byteAt_writeBytes s wf, dif_pos ⟨by omega, by omega⟩]
  simp [State.reg]

/-- Settles O46: the store's two bytes at `pc` are the word the next fetch reads. -/
theorem storedWordIsFetchedNext : Obligations.StoredWordIsFetchedNext := by
  rintro s t x last k j j' wf rfl inside rfl hj' hlast hpc store fetches
  rw [← lastReg_eq] at inside hlast
  cases (exec_storeRegs_ok (by omega)).symm.trans store
  have word : fetchedWord (writeRegs (lastReg s.cfg.lsRange x + 1) s) = s.reg j ++ s.reg j' := by
    have high := byteAt_writeRegs wf (r := j) (count := lastReg s.cfg.lsRange x + 1) (by omega)
    have low := byteAt_writeRegs wf (r := j') (count := lastReg s.cfg.lsRange x + 1) (by omega)
    rw [hj', ← Nat.add_assoc] at low
    rw [← high, ← low, ← hpc]
    rfl
  rw [step_of_fetches fetches, word]
  rfl

/-- Where a STEP fetches, a word is placed by writing its two bytes at `pc` (R64). -/
theorem placeWord_of_fetches {s : State} (h : s.fetches) (op : Word) :
    placeWord s op =
      { s with mem := Memory.writeBytes s.cfg.font s.mem s.pc.toNat (bytesOfWord op) } := by
  have ⟨running, awake, _, _⟩ := h
  have noFault := (fetchFault_none_iff running awake).mpr h
  simp [placeWord, bytesOfWord, noFault, running, awake]

/-- The halves of a word put together again (R64). -/
theorem extractLsb'_append_self (op : Word) : op.extractLsb' 8 8 ++ op.extractLsb' 0 8 = op :=
  (BitVec.extractLsb'_append_extractLsb'_eq_extractLsb' rfl).trans BitVec.extractLsb'_eq_self

/-- The word written at an address is the word there (R64). -/
theorem wordAt_writeBytes_bytesOfWord {s : State} (wf : Memory.wf s.cfg.font s.mem) (a : Nat)
    (op : Word) :
    State.wordAt { s with mem := Memory.writeBytes s.cfg.font s.mem a (bytesOfWord op) } a = op := by
  rw [State.wordAt, byteAt_writeBytes s wf, byteAt_writeBytes s wf]
  simpa [bytesOfWord] using extractLsb'_append_self op

/-- What the table's numbering of a word decodes to is what its word decodes to. -/
theorem decodeWord_of_decodeTableWord {n w : Nat} {i : Instr} (h : decodeTableWord n w = some i) :
    decodeWord (BitVec.ofNat 16 (w % 2 ^ n)) = .instr i := by
  rw [decodeTableWord, decode_bytesOfWord] at h
  split at h
  · next decoded => cases h; exact Option.some.inj decoded
  · cases h

/-- Settles O9: the placing changes memory alone, so the state still fetches, and fetches the word. -/
theorem placedWordIsRun : Obligations.PlacedWordIsRun := by
  intro s w i wf fetches _ table
  have placed : s.withFetchWord 16 w = _ :=
    placeWord_of_fetches fetches (BitVec.ofNat 16 (w % 2 ^ 16))
  have still : (s.withFetchWord 16 w).fetches := placed ▸ fetches
  refine ⟨still, fun a notHigh notLow => ?_, placed ▸ rfl, ?_⟩
  · rw [placed, byteAt_writeBytes s wf, dif_neg]
    simp only [bytesOfWord, List.length_cons, List.length_nil]
    omega
  · have word : fetchedWord (s.withFetchWord 16 w) = BitVec.ofNat 16 (w % 2 ^ 16) := by
      rw [placed]
      exact wordAt_writeBytes_bytesOfWord wf s.pc.toNat _
    rw [step_of_fetches still, word, decodeWord_of_decodeTableWord table, placed]
    rfl

end Sys2Proof.Machine
end

section
/-! SUPPORT. The decoder and the encoder are inverse to each other, the decoder is the opcode table, and the
words that select nothing (spec/30_encoding.md R91 to R102). -/

namespace Sys2Proof

/-! ### Packing the fields of a word -/

/-- A word of family `c` is `c` packed with its other fields, in each of the three shapes. -/
theorem packNNN_of_fields {op : Word} {c : Nibble} (hc : fieldC op = c) :
    packNNN c (fieldNNN op) = op := by
  rw [← hc, packNNN_fields]

theorem packXNN_of_fields {op : Word} {c : Nibble} {nn : Byte} (hc : fieldC op = c)
    (hnn : fieldNN op = nn) : packXNN c (fieldX op) nn = op := by
  rw [← hc, ← hnn, packXNN_fields]

theorem packXYN_of_fields {op : Word} {c n : Nibble} (hc : fieldC op = c) (hn : fieldN op = n) :
    packXYN c (fieldX op) (fieldY op) n = op := by
  rw [← hc, ← hn, packXYN_fields]

/-- The family of a word as a number (R91). -/
theorem toNat_div_of_fieldC {op : Word} {c : Nibble} (hc : fieldC op = c) :
    op.toNat / 4096 = c.toNat := by
  have := op.isLt
  rw [← hc, toNat_fieldC]
  omega

/-! ### Decoding an encoding -/

/-- The addresses that spell neither CLS nor RET (R97). -/
theorem sysAddrOk_iff (nnn : Addr12) : sysAddrOk nnn = true ↔ nnn ≠ 0x0E0 ∧ nnn ≠ 0x0EE := by
  simp only [sysAddrOk, Bool.and_eq_true, bne_iff_ne]

/-- A well-formed instruction is what its word decodes to (R95, R101). -/
theorem decodeWord_encode {i : Instr} (wf : i.wf = true) : decodeWord (encode i) = .instr i := by
  cases i with
  | cls | ret => decide
  | sys nnn =>
    obtain ⟨notCls, notRet⟩ := (sysAddrOk_iff nnn).mp wf
    calc decodeWord (packNNN 0x0 nnn)
      _ = decodeFamily0 (packNNN 0x0 nnn) := by simp [decodeWord]
      _ = .instr (.sys nnn) := by
        rw [decodeFamily0, fieldNNN_packNNN, if_neg notCls, if_neg notRet]
  | jp | call | ldI | jpV0 => simp [encode, decodeWord]
  | seImm | sneImm | ldImm | addImm | rnd => simp [encode, decodeWord]
  | seReg | sneReg | drw => simp [encode, decodeWord]
  | ldReg | orReg | andReg | xorReg | addReg | subReg | shr | subnReg | shl =>
    simp [encode, decodeWord, decodeFamily8]
  | skp | sknp => simp [encode, decodeWord, decodeFamilyE]
  | ldVxDt | ldVxK | ldDtVx | ldStVx | addI | ldF | ldB | storeRegs | loadRegs =>
    simp [encode, decodeWord, decodeFamilyF]

/-- A word of family 0 that is neither CLS's nor RET's is SYS (R97). -/
theorem decodeWord_of_encode_sys {op : Word} {nnn : Addr12} (word : encode (.sys nnn) = op)
    (notCls : op ≠ 0x00E0) (notRet : op ≠ 0x00EE) : decodeWord op = .instr (.sys nnn) := by
  subst word
  refine decodeWord_encode ((sysAddrOk_iff nnn).mpr ⟨?_, ?_⟩)
  · rintro rfl; exact notCls rfl
  · rintro rfl; exact notRet rfl

/-- Settles O3, by the constructors of the instruction. -/
theorem decodeOfEncodeIsTheInstruction : Obligations.DecodeOfEncodeIsTheInstruction :=
  fun _ wf => decodeWord_encode wf

/-! ### Encoding a decoded word -/

/-- `d` names the word `op`: an instruction by its encoding, an unknown word by itself (R95, R102). -/
def Decoded.Names (op : Word) : Decoded → Prop
  | .instr i => encode i = op ∧ i.wf = true
  | .unknown w => w = op

/-- A dispatch names a word when its instruction does under its condition, and so does the rest of the
dispatch. -/
theorem Decoded.Names.ite {op : Word} {p : Prop} [Decidable p] {i : Instr} {d : Decoded}
    (selected : p → encode i = op ∧ i.wf = true) (rest : d.Names op) :
    (if p then .instr i else d : Decoded).Names op := by
  split
  · next holds => exact selected holds
  · exact rest

theorem decodeFamily0_names {op : Word} (hc : fieldC op = 0x0) : (decodeFamily0 op).Names op := by
  have word := packNNN_of_fields hc
  unfold decodeFamily0
  split_ifs with cls ret
  · rw [cls] at word
    exact ⟨word, rfl⟩
  · rw [ret] at word
    exact ⟨word, rfl⟩
  · exact ⟨word, (sysAddrOk_iff _).mpr ⟨cls, ret⟩⟩

theorem decodeFamily8_names {op : Word} (hc : fieldC op = 0x8) : (decodeFamily8 op).Names op := by
  unfold decodeFamily8
  iterate 9 refine .ite (fun hn => ⟨packXYN_of_fields hc hn, rfl⟩) ?_
  rfl

theorem decodeFamilyE_names {op : Word} (hc : fieldC op = 0xE) : (decodeFamilyE op).Names op := by
  unfold decodeFamilyE
  iterate 2 refine .ite (fun hnn => ⟨packXNN_of_fields hc hnn, rfl⟩) ?_
  rfl

theorem decodeFamilyF_names {op : Word} (hc : fieldC op = 0xF) : (decodeFamilyF op).Names op := by
  unfold decodeFamilyF
  iterate 9 refine .ite (fun hnn => ⟨packXNN_of_fields hc hnn, rfl⟩) ?_
  rfl

/-- What a word decodes to names that word. -/
theorem decodeWord_names (op : Word) : (decodeWord op).Names op := by
  rcases decodeWord_cases op with ⟨hc, e⟩ | ⟨hc, e⟩ | ⟨hc, e⟩ | ⟨hc, e⟩ | ⟨hc, e⟩ | ⟨hc, e⟩ |
    ⟨hc, e⟩ | ⟨hc, e⟩ | ⟨hc, e⟩ | ⟨hc, e⟩ | ⟨hc, e⟩ | ⟨hc, e⟩ | ⟨hc, e⟩ | ⟨hc, e⟩ | ⟨hc, e⟩ |
    ⟨hc, e⟩ <;> rw [e]
  · exact decodeFamily0_names hc
  · exact ⟨packNNN_of_fields hc, rfl⟩
  · exact ⟨packNNN_of_fields hc, rfl⟩
  · exact ⟨packXNN_of_fields hc rfl, rfl⟩
  · exact ⟨packXNN_of_fields hc rfl, rfl⟩
  · exact ⟨packXYN_of_fields hc rfl, rfl⟩
  · exact ⟨packXNN_of_fields hc rfl, rfl⟩
  · exact ⟨packXNN_of_fields hc rfl, rfl⟩
  · exact decodeFamily8_names hc
  · exact ⟨packXYN_of_fields hc rfl, rfl⟩
  · exact ⟨packNNN_of_fields hc, rfl⟩
  · exact ⟨packNNN_of_fields hc, rfl⟩
  · exact ⟨packXNN_of_fields hc rfl, rfl⟩
  · exact ⟨packXYN_of_fields hc rfl, rfl⟩
  · exact decodeFamilyE_names hc
  · exact decodeFamilyF_names hc

/-- A word that selects an instruction is its encoding, and the instruction is well-formed. -/
theorem encode_of_decodeWord {op : Word} {i : Instr} (h : decodeWord op = .instr i) :
    encode i = op ∧ i.wf = true := by
  have names := decodeWord_names op
  rwa [h] at names

/-- Settles O4, by the decoder's dispatch on the family of the word. -/
theorem encodeOfDecodeIsTheWord : Obligations.EncodeOfDecodeIsTheWord :=
  fun _ _ h => encode_of_decodeWord h

/-! ### The opcode table -/

/-- The encoding of every instruction has the fixed bits of its row (R101). -/
theorem encode_and_mask (i : Instr) : Laws.OpcodeTable.Statement i := by
  cases i with
  | cls | ret => rfl
  | sys | jp | call | ldI | jpV0 => exact Laws.maskC_packNNN ..
  | seImm | sneImm | ldImm | addImm | rnd => exact Laws.maskC_packXNN ..
  | seReg | sneReg | drw => exact Laws.maskC_packXYN ..
  | ldReg | orReg | andReg | xorReg | addReg | subReg | shr | subnReg | shl =>
    exact Laws.maskCN_packXYN ..
  | skp | sknp | ldVxDt | ldVxK | ldDtVx | ldStVx | addI | ldF | ldB | storeRegs | loadRegs =>
    exact Laws.maskCNN_packXNN ..

/-- The fields of a word that a mask fixes are the pattern's, as bits that `simp` computes. -/
theorem fieldC_of_and_maskC {op p : Word} (h : op &&& 0xF000 = p) :
    fieldC op = p.extractLsb' 12 4 := by
  rw [← fieldC, ← h, and_maskC, fieldC_packNNN]

theorem fields_of_and_maskCN {op p : Word} (h : op &&& 0xF00F = p) :
    fieldC op = p.extractLsb' 12 4 ∧ fieldN op = p.extractLsb' 0 4 := by
  rw [← fieldC, ← fieldN, ← h, and_maskCN, fieldC_packXYN, fieldN_packXYN]
  exact ⟨rfl, rfl⟩

theorem fields_of_and_maskCNN {op p : Word} (h : op &&& 0xF0FF = p) :
    fieldC op = p.extractLsb' 12 4 ∧ fieldNN op = p.extractLsb' 0 8 := by
  rw [← fieldC, ← fieldNN, ← h, and_maskCNN, fieldC_packXNN, fieldNN_packXNN]
  exact ⟨rfl, rfl⟩

/-- A word with the fixed bits of a row selects an instruction of that row; a word of family 0 must spell
neither CLS nor RET to be SYS (R97, R101). -/
theorem decodeWord_of_row {op : Word} {j : Instr}
    (row : op &&& (opcodeRow j).mask = (opcodeRow j).pattern)
    (sys : ∀ nnn, j = .sys nnn → op ≠ 0x00E0 ∧ op ≠ 0x00EE) :
    ∃ i, decodeWord op = .instr i ∧ opcodeRow i = opcodeRow j := by
  cases j with
  | cls | ret =>
    cases (BitVec.and_allOnes (x := op)).symm.trans row
    exact ⟨_, rfl, rfl⟩
  | sys nnn =>
    obtain ⟨notCls, notRet⟩ := sys nnn rfl
    have hc : fieldC op = 0x0 := by simpa [opcodeRow] using fieldC_of_and_maskC row
    have word : encode (.sys (fieldNNN op)) = op := packNNN_of_fields hc
    exact ⟨_, decodeWord_of_encode_sys word notCls notRet, rfl⟩
  | jp | call | ldI | jpV0 | seImm | sneImm | ldImm | addImm | rnd | seReg | sneReg | drw =>
    have hc := fieldC_of_and_maskC row
    simp [decodeWord, hc, opcodeRow]
  | ldReg | orReg | andReg | xorReg | addReg | subReg | shr | subnReg | shl =>
    obtain ⟨hc, hn⟩ := fields_of_and_maskCN row
    simp [decodeWord, hc, decodeFamily8, hn, opcodeRow]
  | skp | sknp =>
    obtain ⟨hc, hnn⟩ := fields_of_and_maskCNN row
    simp [decodeWord, hc, decodeFamilyE, hnn, opcodeRow]
  | ldVxDt | ldVxK | ldDtVx | ldStVx | addI | ldF | ldB | storeRegs | loadRegs =>
    obtain ⟨hc, hnn⟩ := fields_of_and_maskCNN row
    simp [decodeWord, hc, decodeFamilyF, hnn, opcodeRow]

/-- Settles O5: one way by the encoding of the decoded instruction, the other row by row. -/
theorem decoderFollowsOpcodeTable : Obligations.DecoderFollowsOpcodeTable := by
  refine ⟨fun op i h => ?_, fun _ _ row sys => decodeWord_of_row row sys⟩
  rw [← (encode_of_decodeWord h).1]
  exact encode_and_mask i

/-! ### The words that select no instruction -/

theorem fieldN_eq_iff (op : Word) (n : Nibble) : fieldN op = n ↔ op.toNat % 16 = n.toNat := by
  rw [← BitVec.toNat_inj, toNat_fieldN]

theorem fieldNN_eq_iff (op : Word) (nn : Byte) : fieldNN op = nn ↔ op.toNat % 256 = nn.toNat := by
  rw [← BitVec.toNat_inj, toNat_fieldNN]

/-- A dispatch whose condition selects an instruction is unknown when the condition fails and the rest of
the dispatch is unknown. -/
theorem ite_instr_eq_unknown_iff {p : Prop} [Decidable p] {i : Instr} {d : Decoded} {w : Word} :
    (if p then .instr i else d) = Decoded.unknown w ↔ ¬ p ∧ d = .unknown w := by
  split
  · next holds => exact iff_of_false nofun fun h => h.1 holds
  · next fails => exact (and_iff_right fails).symm

/-- Family 0 has no unknown word (R97). -/
theorem decodeFamily0_ne_unknown (op w : Word) : decodeFamily0 op ≠ .unknown w := by
  simp [decodeFamily0, ite_instr_eq_unknown_iff]

/-- The unknown words of family 8 (R98), of family E (R99) and of family F (R100). -/
theorem decodeFamily8_eq_unknown_iff (op : Word) : decodeFamily8 op = .unknown op ↔
    op.toNat % 16 ∈ [0x8, 0x9, 0xA, 0xB, 0xC, 0xD, 0xF] := by
  simp only [decodeFamily8, ite_instr_eq_unknown_iff, fieldN_eq_iff, and_true, BitVec.ofNat_eq_ofNat,
    BitVec.toNat_ofNat, List.mem_cons, List.not_mem_nil, or_false]
  omega

theorem decodeFamilyE_eq_unknown_iff (op : Word) : decodeFamilyE op = .unknown op ↔
    op.toNat % 256 ∉ [0x9E, 0xA1] := by
  simp [decodeFamilyE, ite_instr_eq_unknown_iff, fieldNN_eq_iff]

theorem decodeFamilyF_eq_unknown_iff (op : Word) : decodeFamilyF op = .unknown op ↔
    op.toNat % 256 ∉ [0x07, 0x0A, 0x15, 0x18, 0x1E, 0x29, 0x33, 0x55, 0x65] := by
  simp [decodeFamilyF, ite_instr_eq_unknown_iff, fieldNN_eq_iff]

/-- Settles O6, by the decoder's dispatch on the family of the word: in families 8, E and F the family's own
list decides, and in the others both sides are false. -/
theorem unknownWordsAreThoseOfFamilies8EF : Obligations.UnknownWordsAreThoseOfFamilies8EF := by
  intro op
  rcases decodeWord_cases op with ⟨hc, e⟩ | ⟨hc, e⟩ | ⟨hc, e⟩ | ⟨hc, e⟩ | ⟨hc, e⟩ | ⟨hc, e⟩ |
    ⟨hc, e⟩ | ⟨hc, e⟩ | ⟨hc, e⟩ | ⟨hc, e⟩ | ⟨hc, e⟩ | ⟨hc, e⟩ | ⟨hc, e⟩ | ⟨hc, e⟩ | ⟨hc, e⟩ |
    ⟨hc, e⟩ <;>
  · have family := toNat_div_of_fieldC hc
    simp [e, family, decodeFamily0_ne_unknown, decodeFamily8_eq_unknown_iff,
      decodeFamilyE_eq_unknown_iff, decodeFamilyF_eq_unknown_iff]

/-! ### The fields of a word, and words written out -/

/-- Settles O1, field by field. -/
theorem fieldsSplitEveryWord : Obligations.FieldsSplitEveryWord := fun op =>
  ⟨(toNat_div_of_fieldC rfl).symm, val_fieldX op, val_fieldY op, toNat_fieldN op, toNat_fieldNN op,
    toNat_fieldNNN op⟩

/-- Settles O2, by evaluating the decoder on each word. -/
theorem spelledWordsDecode : Obligations.SpelledWordsDecode := by
  unfold Obligations.SpelledWordsDecode
  decide

end Sys2Proof

namespace Sys2Proof.Machine

/-! ### The reported no-ops: SYS and the unknown word -/

/-- A word of family 0 is the word of the SYS of its low 12 bits (R97). -/
theorem encode_sys_of_lt {op : Word} (h : op.toNat < 0x1000) :
    encode (.sys (BitVec.ofNat 12 op.toNat)) = op := by
  apply BitVec.eq_of_toNat_eq
  rw [encode, toNat_packNNN, BitVec.toNat_ofNat, Nat.mod_eq_of_lt h]
  exact Nat.zero_add _

/-- Executing SYS appends the report of its word and `pc_start`, and does nothing else (R122). -/
theorem exec_sys (nnn : Addr12) (s : State) :
    exec (.sys nnn) s =
      .next { s with events := s.events ++ [.report .legacySys (encode (.sys nnn)) (s.pc - 2)] } :=
  rfl

/-- Settles O7: CLS and RET by their words, and every other word by the SYS it encodes. -/
theorem familyZeroMatchesFullWord : Obligations.FamilyZeroMatchesFullWord := by
  intro op family0
  have word := encode_sys_of_lt family0
  refine ⟨fun cls => cls ▸ rfl, fun ret => ret ▸ rfl, fun notCls notRet =>
    ⟨decodeWord_of_encode_sys word notCls notRet, fun s => ?_⟩⟩
  rw [exec_sys, word]

/-- A STEP that fetches an unknown word advances `pc` and reports the word at `pc_start` (R102). -/
theorem step_of_unknown {s : State} (h : s.fetches)
    (unknown : decodeWord (fetchedWord s) = .unknown (fetchedWord s)) :
    step s = .next ((s.setPc (s.pc + 2)).emit (.report .unknownOpcode (fetchedWord s) s.pc)) := by
  have start : (afterFetch s).pcStart = s.pc := pc_add_sub s.pc
  rw [step_of_fetches h, unknown, execDecoded, execUnknown, start]
  rfl

/-- Settles O11: `pc` and the event stream are all that the STEP writes. -/
theorem unknownWordIsReportedNoOp : Obligations.UnknownWordIsReportedNoOp := by
  rintro s _ fetches rfl unknown
  exact ⟨_, step_of_unknown fetches unknown, rfl, rfl, fun _ => rfl, fun _ => rfl, rfl⟩

end Sys2Proof.Machine
end

section
/-! SUPPORT. Control flow: the words of each shape given as numbers (spec/30_encoding.md R101), then clear,
return, call, jumps and skips (spec/40_control_flow.md R120 to R131). -/

namespace Sys2Proof

/-- A word given by the numbers of its fields is the fields packed, in each of the three shapes. -/
theorem ofNat_packNNN (c : Nibble) (nnn : Addr12) :
    BitVec.ofNat 16 (c.toNat * 4096 + nnn.toNat) = packNNN c nnn := by
  rw [← toNat_packNNN, BitVec.ofNat_toNat, BitVec.setWidth_eq]

theorem ofNat_packXNN (c : Nibble) (x : Reg) (nn : Byte) :
    BitVec.ofNat 16 (c.toNat * 4096 + 256 * x.val + nn.toNat) = packXNN c x nn := by
  rw [Nat.mul_comm 256, ← toNat_packXNN, BitVec.ofNat_toNat, BitVec.setWidth_eq]

theorem ofNat_packXYN (c : Nibble) (x y : Reg) (n : Nibble) :
    BitVec.ofNat 16 (c.toNat * 4096 + 256 * x.val + 16 * y.val + n.toNat) = packXYN c x y n := by
  rw [Nat.mul_comm 256, Nat.mul_comm 16, ← toNat_packXYN, BitVec.ofNat_toNat, BitVec.setWidth_eq]

/-- A word that is the encoding of a well-formed instruction selects it (R95). -/
theorem decodeWord_of_eq_encode {op : Word} {i : Instr} (word : op = encode i) (wf : i.wf = true) :
    decodeWord op = .instr i := by
  rw [word, decodeWord_encode wf]

end Sys2Proof

namespace Sys2Proof.Machine

/-! ### Return and call -/

/-- RET pops the top entry into `pc` (R121). -/
theorem exec_ret_of_cons {s : State} {a : Word} {rest : List Word} (top : s.stack = a :: rest) :
    exec .ret s = .next { s with stack := rest, pc := a } := by
  rw [exec, execRet, top]

/-- RET on an empty stack raises STACK_UNDERFLOW (R121). -/
theorem exec_ret_of_nil {s : State} (empty : s.stack = []) :
    exec .ret s = raise .stackUnderflow 0 0x00EE s := by
  rw [exec, execRet, empty]
  rfl

/-- CALL pushes `pc_next` where the stack has room (R124). -/
theorem exec_call_of_room {s : State} (room : s.cfg.stackDepth ≠ some s.stack.length)
    (nnn : Addr12) : exec (.call nnn) s = .next ((s.push s.pc).setPc (addrOperand nnn)) :=
  if_neg (mt (stackFull_iff s).mp room)

/-- CALL on a full stack raises STACK_OVERFLOW with the value that would be pushed (R124). -/
theorem exec_call_of_full {s : State} (full : s.cfg.stackDepth = some s.stack.length)
    (nnn : Addr12) : exec (.call nnn) s = raise .stackOverflow s.pc (encode (.call nnn)) s :=
  if_pos ((stackFull_iff s).mpr full)

/-- Settles O14, by the stack being empty or not. -/
theorem retPopsOrUnderflows : Obligations.RetPopsOrUnderflows := by
  refine ⟨decodeWord_encode (i := .ret) rfl, fun s a rest top => ?_, fun s empty => ?_⟩
  · exact ⟨_, exec_ret_of_cons top, rfl, rfl, fun _ => rfl, fun _ => rfl, rfl⟩
  · rw [exec_ret_of_nil empty]
    exact raise_eq .stackUnderflow 0 0x00EE s

/-- Settles O17, by the stack being full or not. -/
theorem callPushesOrOverflows : Obligations.CallPushesOrOverflows := by
  intro s nnn
  have word : BitVec.ofNat 16 (0x2000 + nnn.toNat) = encode (.call nnn) := ofNat_packNNN 0x2 nnn
  refine ⟨decodeWord_of_eq_encode word rfl, fun room => ?_, fun full => ?_⟩
  · exact ⟨_, exec_call_of_room room nnn, rfl, toNat_addrOperand nnn, fun _ => rfl, fun _ => rfl, rfl⟩
  · rw [exec_call_of_full full, word]
    exact raise_eq .stackOverflow s.pc (encode (.call nnn)) s

/-- Settles O18: RET pops what CALL pushed, the `pc` that CALL left behind. -/
theorem retUndoesCall : Obligations.RetUndoesCall := by
  intro s t u nnn room call ret
  cases (exec_call_of_room room nnn).symm.trans call
  cases (exec_ret_of_cons (a := s.pc) (rest := s.stack) rfl).symm.trans ret
  rfl

/-! ### Jumps and skips -/

/-- The target of JP V0, nnn is the exact sum, which 16 bits hold (R129). -/
theorem toNat_addrOperand_add_byteOperand (nnn : Addr12) (b : Byte) :
    (addrOperand nnn + byteOperand b).toNat = nnn.toNat + b.toNat := by
  have ha := nnn.isLt
  have hb := b.isLt
  rw [BitVec.toNat_add, toNat_addrOperand, toNat_byteOperand]
  omega

/-- Settles O16: each jump is one write of `pc`, at the number its operand computes. -/
theorem jumpsSetPc : Obligations.JumpsSetPc := fun s nnn =>
  ⟨decodeWord_of_eq_encode (ofNat_packNNN 0x1 nnn) rfl,
    decodeWord_of_eq_encode (ofNat_packNNN 0xB nnn) rfl,
    ⟨_, rfl, toNat_addrOperand nnn, onlyPcChanges_setPc s _⟩,
    ⟨_, rfl, toNat_addrOperand_add_byteOperand nnn (s.reg 0), onlyPcChanges_setPc s _⟩⟩

/-- Where a skip on equal bytes, and one on different bytes, leaves `pc` (R131). -/
theorem State.pc_skipIf_beq (s : State) (a b : Byte) :
    (s.skipIf (a == b)).pc = if a = b then s.pc + 2 else s.pc := by
  simp only [State.skipIf_eq, beq_iff_eq]

theorem State.pc_skipIf_bne (s : State) (a b : Byte) :
    (s.skipIf (a != b)).pc = if a = b then s.pc else s.pc + 2 := by
  simp only [State.skipIf_eq, bne_iff_ne, ite_not]

/-- Settles O19: both are the skip on a register and the immediate. -/
theorem skipsAgainstImmediate : Obligations.SkipsAgainstImmediate := fun s x nn =>
  ⟨decodeWord_of_eq_encode (ofNat_packXNN 0x3 x nn) rfl,
    decodeWord_of_eq_encode (ofNat_packXNN 0x4 x nn) rfl,
    ⟨_, rfl, s.pc_skipIf_beq (s.reg x) nn, onlyPcChanges_skipIf s _⟩,
    ⟨_, rfl, s.pc_skipIf_bne (s.reg x) nn, onlyPcChanges_skipIf s _⟩⟩

/-- Settles O20: both are the skip on two registers, and `n` is a field of the word alone (R94). -/
theorem skipsAgainstRegister : Obligations.SkipsAgainstRegister := fun s x y n =>
  ⟨decodeWord_of_eq_encode (ofNat_packXYN 0x5 x y n) rfl,
    decodeWord_of_eq_encode (ofNat_packXYN 0x9 x y n) rfl,
    ⟨_, rfl, s.pc_skipIf_beq (s.reg x) (s.reg y), onlyPcChanges_skipIf s _⟩,
    ⟨_, rfl, s.pc_skipIf_bne (s.reg x) (s.reg y), onlyPcChanges_skipIf s _⟩⟩

/-! ### Clear and the legacy call -/

/-- Settles O13: the framebuffer becomes the blank one, and the event stream grows by one. -/
theorem clsClearsTheScreen : Obligations.ClsClearsTheScreen :=
  ⟨decodeWord_encode (i := .cls) rfl, fun _ =>
    ⟨_, rfl, fun r c _ _ => Framebuffer.pixel_blank r c, rfl, fun _ => rfl, fun _ => rfl, rfl⟩⟩

/-- Settles O15: the reported word is the one that decodes to this SYS. -/
theorem sysIsReportedNoOp : Obligations.SysIsReportedNoOp := by
  intro s nnn notCls notRet
  have word : BitVec.ofNat 16 nnn.toNat = encode (.sys nnn) :=
    ofNat_eq_encode ((toNat_packNNN 0x0 nnn).trans (Nat.zero_add _))
  rw [word]
  exact ⟨decodeWord_encode ((sysAddrOk_iff nnn).mpr ⟨notCls, notRet⟩), _, exec_sys nnn s, rfl,
    fun _ => rfl, fun _ => rfl, rfl⟩

end Sys2Proof.Machine
end

section
/-! SUPPORT. Register arithmetic: the words of family 8, what Vx and VF hold after a result and its flag are
written, and the values of the flags (spec/41_register_arithmetic.md R150 to R162). -/

namespace Sys2Proof

/-- The word `8xyn`, given by the numbers of its fields, selects the instruction it encodes (R95, R101). -/
theorem decodeWord_family8 {i : Instr} (x y : Reg) (n : Nibble)
    (word : packXYN 0x8 x y n = encode i) (wf : i.wf = true) :
    decodeWord (BitVec.ofNat 16 (0x8000 + n.toNat + 256 * x.val + 16 * y.val)) = .instr i := by
  have fields : 0x8000 + n.toNat + 256 * x.val + 16 * y.val =
      0x8000 + 256 * x.val + 16 * y.val + n.toNat := by omega
  rw [fields]
  exact decodeWord_of_eq_encode ((ofNat_packXYN 0x8 x y n).trans word) wf

end Sys2Proof

namespace Sys2Proof.Machine

/-! ### Results and flags -/

/-- The destination of a register write holds what was written. -/
theorem State.reg_setReg_self (s : State) (x : Reg) (b : Byte) : (s.setReg x b).reg x = b := by
  rw [State.reg_setReg, if_pos rfl]

/-- The flag is written last, so VF holds it whatever x is (R161). -/
theorem State.reg_setRegFlag_vf (s : State) (x : Reg) (b : Byte) (f : Bool) :
    (s.setRegFlag x b f).reg 0xF = flagByte f := by
  rw [State.reg_setRegFlag, if_pos rfl]

/-- Vx keeps the result unless it is VF (R161). -/
theorem State.reg_setRegFlag_of_ne_vf (s : State) {x : Reg} (hx : x ≠ 0xF) (b : Byte) (f : Bool) :
    (s.setRegFlag x b f).reg x = b := by
  rw [State.reg_setRegFlag, if_neg hx, if_pos rfl]

/-- A flag decided by a comparison is 1 exactly where the comparison holds. -/
theorem flagByte_decide (p : Prop) [Decidable p] : flagByte (decide p) = if p then 1 else 0 := by
  simp only [flagByte, decide_eq_true_eq]

/-- The carry (R156). -/
theorem flagByte_carryOf (a b : Byte) :
    flagByte (carryOf a b) = if a.toNat + b.toNat > 0xFF then 1 else 0 :=
  flagByte_decide _

/-- The borrow status (R157, R159). -/
theorem flagByte_notBorrowOf (a b : Byte) :
    flagByte (notBorrowOf a b) = if a.toNat > b.toNat then 1 else 0 :=
  flagByte_decide _

theorem toNat_flagByte (f : Bool) : (flagByte f).toNat = f.toNat := by
  cases f <;> rfl

/-- The bit a shift right puts out is the remainder of halving (R158). -/
theorem toNat_shrOut (a : Byte) : (shrOut a).toNat = a.toNat % 2 := by
  rw [shrOut, BitVec.getLsbD, Nat.toNat_testBit, Nat.pow_zero, Nat.div_one]

/-- The bit a shift left puts out is the 128s digit, the top one of a byte (R160). -/
theorem toNat_shlOut (a : Byte) : (shlOut a).toNat = a.toNat / 128 := by
  have := a.isLt
  rw [shlOut, BitVec.getLsbD, Nat.toNat_testBit]
  omega

theorem toNat_shiftRight_one (a : Byte) : (a >>> 1).toNat = a.toNat / 2 := by
  rw [BitVec.toNat_ushiftRight, Nat.shiftRight_eq_div_pow, Nat.pow_one]

theorem toNat_shiftLeft_one (a : Byte) : (a <<< 1).toNat = 2 * a.toNat % 256 := by
  rw [BitVec.toNat_shiftLeft, Nat.shiftLeft_eq, Nat.pow_one, Nat.mul_comm]

/-- A wrapped difference, with the minuend in front (R157, R159). -/
theorem toNat_sub_byte (a b : Byte) : (a - b).toNat = (a.toNat + 0x100 - b.toNat) % 256 := by
  have := b.isLt
  rw [BitVec.toNat_sub]
  omega

/-! ### Loads, add immediate and logic -/

/-- Settles O21: each is one write of Vx, of the immediate, the wrapped sum and the other register. -/
theorem loadsAndAddImmediateWriteVx : Obligations.LoadsAndAddImmediateWriteVx := fun s x y nn =>
  ⟨decodeWord_of_eq_encode (ofNat_packXNN 0x6 x nn) rfl,
    decodeWord_of_eq_encode (ofNat_packXNN 0x7 x nn) rfl,
    decodeWord_family8 x y 0x0 rfl rfl,
    ⟨_, rfl, s.reg_setReg_self x nn, onlyRegsChange_setReg s x _⟩,
    ⟨_, rfl, by rw [s.reg_setReg_self, BitVec.toNat_add], onlyRegsChange_setReg s x _⟩,
    ⟨_, rfl, s.reg_setReg_self x (s.reg y), onlyRegsChange_setReg s x _⟩⟩

/-- Settles O22: each is one write of Vx, whose bits are those of the bitwise operation. -/
theorem logicWritesVxOnly : Obligations.LogicWritesVxOnly := fun s x y =>
  ⟨decodeWord_family8 x y 0x1 rfl rfl, decodeWord_family8 x y 0x2 rfl rfl,
    decodeWord_family8 x y 0x3 rfl rfl,
    ⟨_, rfl, fun k _ => by rw [s.reg_setReg_self, BitVec.getLsbD_or], onlyRegsChange_setReg s x _⟩,
    ⟨_, rfl, fun k _ => by rw [s.reg_setReg_self, BitVec.getLsbD_and], onlyRegsChange_setReg s x _⟩,
    ⟨_, rfl, fun k _ => by rw [s.reg_setReg_self, BitVec.getLsbD_xor], onlyRegsChange_setReg s x _⟩⟩

/-! ### Results with a flag -/

/-- Settles O23: the result is the wrapped sum, the flag compares the exact one, and VF is written last. -/
theorem addSetsCarry : Obligations.AddSetsCarry := fun s x y =>
  ⟨decodeWord_family8 x y 0x4 rfl rfl, _, rfl,
    fun hx => by rw [s.reg_setRegFlag_of_ne_vf hx, BitVec.toNat_add],
    by rw [s.reg_setRegFlag_vf, flagByte_carryOf], onlyRegsChange_setRegFlag s x _ _⟩

/-- Settles O24: the two are one subtraction with the operands exchanged. -/
theorem subtractionsSetBorrowStatus : Obligations.SubtractionsSetBorrowStatus := fun s x y =>
  ⟨decodeWord_family8 x y 0x5 rfl rfl, decodeWord_family8 x y 0x7 rfl rfl,
    ⟨_, rfl, fun hx => by rw [s.reg_setRegFlag_of_ne_vf hx, toNat_sub_byte],
      by rw [s.reg_setRegFlag_vf, flagByte_notBorrowOf], onlyRegsChange_setRegFlag s x _ _⟩,
    ⟨_, rfl, fun hx => by rw [s.reg_setRegFlag_of_ne_vf hx, toNat_sub_byte],
      by rw [s.reg_setRegFlag_vf, flagByte_notBorrowOf], onlyRegsChange_setRegFlag s x _ _⟩⟩

/-- Settles O25: results and flags are functions of the old Vx, and `y` is a field of the word alone (R98). -/
theorem shiftsMoveVxByOne : Obligations.ShiftsMoveVxByOne := fun s x y =>
  ⟨decodeWord_family8 x y 0x6 rfl rfl, decodeWord_family8 x y 0xE rfl rfl,
    ⟨_, rfl, fun hx => by rw [s.reg_setRegFlag_of_ne_vf hx, toNat_shiftRight_one],
      by rw [s.reg_setRegFlag_vf, toNat_flagByte, toNat_shrOut], onlyRegsChange_setRegFlag s x _ _⟩,
    ⟨_, rfl, fun hx => by rw [s.reg_setRegFlag_of_ne_vf hx, toNat_shiftLeft_one],
      by rw [s.reg_setRegFlag_vf, toNat_flagByte, toNat_shlOut], onlyRegsChange_setRegFlag s x _ _⟩⟩

end Sys2Proof.Machine
end

section
/-! SUPPORT. The index register and the random byte: the words of a row whose low byte is fixed, the values
that `I` receives, and the state a draw leaves (spec/42_index_random.md R180 to R182;
spec/46_memory_block.md R250). -/

namespace Sys2Proof

/-- The word `cxnn` of a row with a fixed low byte, given as the row's number and x, selects the instruction
it encodes (R95, R101). -/
theorem decodeWord_of_packXNN_eq_encode {i : Instr} (c : Nibble) (x : Reg) (nn : Byte)
    (word : packXNN c x nn = encode i) (wf : i.wf = true) :
    decodeWord (BitVec.ofNat 16 (c.toNat * 4096 + nn.toNat + 256 * x.val)) = .instr i := by
  rw [Nat.add_right_comm]
  exact decodeWord_of_eq_encode ((ofNat_packXNN c x nn).trans word) wf

end Sys2Proof

namespace Sys2Proof.Machine

/-! ### Index register -/

/-- ADD I, Vx wraps at 16 bits (R181). -/
theorem toNat_add_byteOperand (a : Word) (b : Byte) :
    (a + byteOperand b).toNat = (a.toNat + b.toNat) % 65536 := by
  rw [BitVec.toNat_add, toNat_byteOperand]

/-- The address of a glyph is at most 75, so the word holds it exactly (R250). -/
theorem toNat_ofNat_glyph (v : Nat) : (BitVec.ofNat 16 (5 * (v % 16))).toNat = 5 * (v % 16) :=
  (BitVec.toNat_ofNat ..).trans (Nat.mod_eq_of_lt (by omega))

/-- Settles O27: each is one write of `I`, at the number its operand computes. -/
theorem indexInstructionsWriteI : Obligations.IndexInstructionsWriteI := fun s x nnn =>
  ⟨decodeWord_of_eq_encode (ofNat_packNNN 0xA nnn) rfl,
    decodeWord_of_packXNN_eq_encode 0xF x 0x1E rfl rfl,
    decodeWord_of_packXNN_eq_encode 0xF x 0x29 rfl rfl,
    ⟨_, rfl, toNat_addrOperand nnn, onlyIChanges_setI s _⟩,
    ⟨_, rfl, toNat_add_byteOperand s.i (s.reg x), onlyIChanges_setI s _⟩,
    ⟨_, rfl, toNat_ofNat_glyph (s.reg x).toNat, onlyIChanges_setI s _⟩⟩

/-! ### Random byte -/

/-- A register write leaves the other registers as they were. -/
theorem State.reg_setReg_of_ne (s : State) {x r : Reg} (hr : r ≠ x) (b : Byte) :
    (s.setReg x b).reg r = s.reg r := by
  rw [State.reg_setReg, if_neg hr]

/-- RND counts one draw, then writes the masked byte of that draw to Vx (R182). -/
theorem exec_rnd (x : Reg) (nn : Byte) (s : State) :
    exec (.rnd x nn) s = .next
      ({ s with rndDraws := s.rndDraws + 1 }.setReg x (Config.rnd8 s.rndDraws &&& nn)) := rfl

/-- Settles O28: one register write after one count of a draw, whatever byte the draw supplies. -/
theorem rndMasksOneFreshDraw : Obligations.RndMasksOneFreshDraw := by
  intro s x nn
  refine ⟨decodeWord_of_eq_encode (ofNat_packXNN 0xC x nn) rfl, _, exec_rnd x nn s,
    State.reg_setReg_self .., rfl, fun k _ off => ?_, fun r hr => State.reg_setReg_of_ne _ hr _,
    fun _ => rfl, rfl⟩
  rw [State.reg_setReg_self, BitVec.getLsbD_and, off, Bool.and_false]

end Sys2Proof.Machine
end

section
/-! SUPPORT. The sprite draw: its pixels and its collision seen from the state it leaves, the two things DRW
can do, and the writers of the framebuffer (spec/43_sprite_draw.md R190 to R200). -/

namespace Sys2Proof.Machine

/-! ### The state a draw leaves -/

theorem flagByte_eq_one_iff (f : Bool) : flagByte f = 1 ↔ f = true := by
  cases f <;> decide

/-- The rows of a draw end at row 31 (R192). -/
theorem spriteRow_add_spriteRows_le (s : State) (y : Reg) (n : Nibble) :
    spriteRow s y + spriteRows n (spriteRow s y) ≤ 32 := by
  have : spriteRow s y < 32 := Nat.mod_lt _ (by decide)
  unfold spriteRows
  omega

/-- VF after a draw is its collision (R195). -/
theorem reg_vf_drawSprite (s : State) (x0 y0 rows : Nat) :
    (drawSprite x0 y0 rows s).reg 0xF = flagByte (drawRows s x0 y0 rows).collision :=
  (reg_drawSprite ..).trans (if_pos rfl)

/-- A draw leaves the other registers as they were. -/
theorem reg_drawSprite_of_ne_vf (s : State) (x0 y0 rows : Nat) {r : Reg} (hr : r ≠ 0xF) :
    (drawSprite x0 y0 rows s).reg r = s.reg r :=
  (reg_drawSprite ..).trans (if_neg hr)

/-- A draw leaves `I` and memory as they were, and with them the sprite. -/
theorem spriteBit_drawSprite (s : State) (x0 y0 rows : Nat) :
    spriteBit (drawSprite x0 y0 rows s) = spriteBit s := rfl

section OnScreen

variable (s : State) (x0 : Nat) {y0 rows : Nat} (onScreen : y0 + rows ≤ 32)

include onScreen

/-- Every pixel of a draw is XORed with its sprite bit (R194). -/
theorem pixel_drawSprite (r : Nat) {c : Nat} (hc : c < 64) :
    (drawSprite x0 y0 rows s).pixel r c = (s.pixel r c != spriteBit s x0 y0 rows r c) := by
  obtain ⟨pixels, -⟩ := drawRows_spec s x0 y0 rows onScreen
  exact pixels r c hc

/-- A draw collides exactly where it took a pixel from 1 to 0 (R195). -/
theorem reg_vf_drawSprite_eq_one_iff :
    (drawSprite x0 y0 rows s).reg 0xF = 1 ↔ ∃ r c, r < 32 ∧ c < 64 ∧ s.pixel r c = true ∧
      (drawSprite x0 y0 rows s).pixel r c = false := by
  obtain ⟨-, collides⟩ := drawRows_spec s x0 y0 rows onScreen
  rw [reg_vf_drawSprite, flagByte_eq_one_iff, collides]
  refine exists_congr fun r => exists_congr fun c => and_congr_right fun _ =>
    and_congr_right fun hc => and_congr_right fun lit => ?_
  rw [pixel_drawSprite s x0 onScreen r hc, lit, Bool.true_bne, Bool.not_eq_false']

/-- A draw that takes no pixel from 1 to 0 leaves VF 0 (R195). -/
theorem reg_vf_drawSprite_eq_zero
    (kept : ∀ r c, r < 32 → c < 64 → s.pixel r c = true →
      (drawSprite x0 y0 rows s).pixel r c = true) :
    (drawSprite x0 y0 rows s).reg 0xF = 0 := by
  have notOne : (drawSprite x0 y0 rows s).reg 0xF ≠ 1 := by
    rw [Ne, reg_vf_drawSprite_eq_one_iff s x0 onScreen]
    rintro ⟨r, c, hr, hc, lit, dark⟩
    exact absurd ((kept r c hr hc lit).symm.trans dark) nofun
  rw [reg_vf_drawSprite, Ne, flagByte_eq_one_iff, Bool.not_eq_true] at notOne
  rw [reg_vf_drawSprite, notOne]
  rfl

/-- A second draw of the sprite at the same origin gives every pixel back (R194). -/
theorem pixel_drawSprite_drawSprite (r : Nat) {c : Nat} (hc : c < 64) :
    (drawSprite x0 y0 rows (drawSprite x0 y0 rows s)).pixel r c = s.pixel r c := by
  rw [pixel_drawSprite _ x0 onScreen r hc, spriteBit_drawSprite, pixel_drawSprite s x0 onScreen r hc,
    Bool.bne_assoc, bne_self_eq_false, Bool.bne_false]

end OnScreen

/-! ### The draw instruction -/

/-- Everything DRW can do: the draw where its rows lie inside memory, else the fault entry (R190, R192). -/
theorem exec_drw_cases {x y : Reg} {n : Nibble} {s t : State} (h : exec (.drw x y n) s = .next t) :
    ((spriteRows n (spriteRow s y) = 0 ∨ s.i.toNat + spriteRows n (spriteRow s y) ≤ 0x1000) ∧
      t = drawSprite (spriteCol s x) (spriteRow s y) (spriteRows n (spriteRow s y)) s) ∨
    FaultEntered .memOutOfRange (firstBadAddr s) (encode (.drw x y n)) { s with pc := s.pc - 2 } t := by
  rcases withBytesAtI_cases _ _ s _ with ⟨inside, e⟩ | ⟨-, -, u, e, entered⟩ <;>
    cases e.symm.trans h
  · exact .inl ⟨inside, rfl⟩
  · exact .inr entered

/-- Settles O29, by the rows on the screen lying inside memory or not. -/
theorem drawXorsTheClippedSprite : Obligations.DrawXorsTheClippedSprite := by
  rintro s x y n _ _ _ rfl rfl rfl
  have word : BitVec.ofNat 16 (0xD000 + 256 * x.val + 16 * y.val + n.toNat) = encode (.drw x y n) :=
    ofNat_packXYN 0xD x y n
  have onScreen := spriteRow_add_spriteRows_le s y n
  refine ⟨decodeWord_of_eq_encode word rfl, fun inside => ?_, fun ⟨r, used, outside⟩ => ?_⟩
  · have fits : spriteRows n (spriteRow s y) = 0 ∨
        s.i.toNat + spriteRows n (spriteRow s y) ≤ 0x1000 := by
      rcases Nat.eq_zero_or_pos (spriteRows n (spriteRow s y)) with noRows | someRows
      · exact .inl noRows
      · have last := inside (spriteRows n (spriteRow s y) - 1) (Nat.sub_one_lt_of_lt someRows)
        exact .inr (by omega)
    exact ⟨_, exec_drw_ok fits, fun r c _ hc => pixel_drawSprite s _ onScreen r hc,
      (reg_vf_drawSprite_eq_one_iff s _ onScreen).mpr, reg_vf_drawSprite_eq_zero s _ onScreen, rfl,
      fun _ => reg_drawSprite_of_ne_vf s _ _ _, fun _ => rfl, rfl⟩
  · have bad : ¬ (spriteRows n (spriteRow s y) = 0 ∨
        s.i.toNat + spriteRows n (spriteRow s y) ≤ 0x1000) := by
      have : r < spriteRows n (spriteRow s y) := used
      omega
    rw [word]
    exact withBytesAtI_bad bad (encode (.drw x y n)) _

/-- DRW at coordinate registers other than VF, after a draw of any sprite: VF is the only register that draw
wrote, so the origin and the rows are those of the state before it (R191, R198). -/
theorem exec_drw_drawSprite {s : State} {x y : Reg} {n : Nibble} (hx : x ≠ 0xF) (hy : y ≠ 0xF)
    (inside : spriteRows n (spriteRow s y) = 0 ∨ s.i.toNat + spriteRows n (spriteRow s y) ≤ 0x1000)
    (x0 y0 rows : Nat) :
    exec (.drw x y n) (drawSprite x0 y0 rows s) =
      .next (drawSprite (spriteCol s x) (spriteRow s y) (spriteRows n (spriteRow s y))
        (drawSprite x0 y0 rows s)) := by
  have col : spriteCol (drawSprite x0 y0 rows s) x = spriteCol s x :=
    congrArg (·.toNat % 64) (reg_drawSprite_of_ne_vf s x0 y0 rows hx)
  have row : spriteRow (drawSprite x0 y0 rows s) y = spriteRow s y :=
    congrArg (·.toNat % 32) (reg_drawSprite_of_ne_vf s x0 y0 rows hy)
  rw [← row] at inside
  have again := exec_drw_ok (x := x) inside
  rwa [col, row] at again

/-- Settles O31: the first draw did not fault, so the second draws the same sprite at the same origin, and it
takes from 1 to 0 the pixels that the first took from 0 to 1. -/
theorem secondDrawUndoesTheFirst : Obligations.SecondDrawUndoesTheFirst := by
  intro s t u x y n hx hy first running second
  rcases exec_drw_cases first with ⟨inside, rfl⟩ | ⟨halted, -⟩
  case inr => exact absurd (running.symm.trans halted) nofun
  cases (exec_drw_drawSprite hx hy inside _ _ _).symm.trans second
  have onScreen := spriteRow_add_spriteRows_le s y n
  refine ⟨fun r c _ hc => pixel_drawSprite_drawSprite s _ onScreen r hc, ?_⟩
  rw [reg_vf_drawSprite_eq_one_iff _ _ onScreen]
  refine exists_congr fun r => exists_congr fun c => and_congr_right fun _ =>
    and_congr_right fun hc => ?_
  rw [pixel_drawSprite_drawSprite s _ onScreen r hc, and_comm]

/-- `Dxy0` writes 0 to VF and emits the framebuffer as it is (R197). -/
theorem exec_drw_zero (x y : Reg) (s : State) :
    exec (.drw x y 0) s = .next ((s.setReg regVF 0).emit (.frameUpdated s.fb)) := by
  have noRows : spriteRows 0 (spriteRow s y) = 0 := Nat.zero_min _
  rw [exec_drw_ok (.inl noRows), noRows]
  rfl

/-- Settles O30: the range check of no bytes passes, and the loop over no rows finds no collision. -/
theorem zeroRowDrawOnlyClearsVf : Obligations.ZeroRowDrawOnlyClearsVf := fun s x y =>
  ⟨_, exec_drw_zero x y s, s.reg_setReg_self regVF 0, rfl, rfl,
    fun _ hr => s.reg_setReg_of_ne hr 0, fun _ => rfl, rfl⟩

/-! ### The writers of the framebuffer -/

/-- The instructions that write the framebuffer (R200). -/
theorem ExecEffect.fb_eq_or {d : Decoded} {s t : State} (effect : ExecEffect d s t) :
    t.fb = s.fb ∨ d = .instr .cls ∨ ∃ x y n, d = .instr (.drw x y n) := by
  cases effect with
  | clears hd => exact .inr (.inl hd)
  | composes x y n hd => exact .inr (.inr ⟨x, y, n, hd⟩)
  | faults entered => exact .inl (congrArg State.fb entered.frame :)
  | writesRegs change => exact .inl (congrArg State.fb change.frame :)
  | _ => exact .inl rfl

/-- The awaiting-key check, TICK and KEY leave the framebuffer as it was. -/
theorem awaitKey_fb (s : State) : (awaitKey s).fb = s.fb := by
  unfold awaitKey
  split <;> rfl

theorem tick_fb (s : State) : (tick s).fb = s.fb := by
  unfold tick
  split <;> rfl

theorem setKey_fb (k : Key) (pressed : Bool) (s : State) : (setKey k pressed s).fb = s.fb := by
  unfold setKey
  split <;> rfl

/-- A STEP that changes the framebuffer fetches and runs CLS or DRW (R200). -/
theorem step_writes_fb {s t : State} (h : step s = .next t) (changed : t.fb ≠ s.fb) :
    s.fetches ∧ (decodeWord (s.wordAt s.pc.toNat) = .instr .cls ∨
      ∃ x y n, decodeWord (s.wordAt s.pc.toNat) = .instr (.drw x y n)) := by
  rcases step_cases h with ⟨-, rfl⟩ | ⟨-, -, rfl⟩ | ⟨-, -, code, -, -, rfl⟩ | ⟨fetches, h⟩
  · exact absurd rfl changed
  · exact absurd (awaitKey_fb s) changed
  · exact absurd rfl changed
  · exact ⟨fetches, (execDecoded_effect h).fb_eq_or.resolve_left changed⟩

/-- Settles O32, by the four transactions. -/
theorem framebufferHasNoOtherWriter : Obligations.FramebufferHasNoOtherWriter := by
  refine ⟨fun s t tr h changed => ?_, fun s t image h r c _ _ => ?_⟩
  · cases tr with
    | reset image => exact .inr ⟨image, rfl⟩
    | step => exact .inl ⟨rfl, step_writes_fb h changed⟩
    | tick => cases h; exact absurd (tick_fb s) changed
    | key k pressed => cases h; exact absurd (setKey_fb k pressed s) changed
  · obtain ⟨-, rfl⟩ := transact_reset_next h
    exact Framebuffer.pixel_blank r c

end Sys2Proof.Machine
end

section
/-! SUPPORT. The keypad: where a key skip leaves `pc`, the two answers of each key skip, and the two of
LD Vx, K and of a STEP in the awaiting-key sub-state, by a key being pressed or not (spec/44_input.md R220
to R225). -/

namespace Sys2Proof

/-- The word of a row with a fixed low byte, given as the row's number and x, is the fields packed (R101). -/
theorem ofNat_row_packXNN (c : Nibble) (x : Reg) (nn : Byte) :
    BitVec.ofNat 16 (c.toNat * 4096 + nn.toNat + 256 * x.val) = packXNN c x nn := by
  rw [Nat.add_right_comm, ofNat_packXNN]

end Sys2Proof

namespace Sys2Proof.Machine

/-! ### Skips on a key -/

/-- Where a skip on a condition, and one on its negation, leaves `pc` (R131). -/
theorem State.pc_skipIf (s : State) (c : Bool) :
    (s.skipIf c).pc = if c = true then s.pc + 2 else s.pc := by
  rw [State.skipIf_eq]

theorem State.pc_skipIf_not (s : State) (c : Bool) :
    (s.skipIf !c).pc = if c = true then s.pc else s.pc + 2 := by
  cases c <;> rfl

section KeyNamed

variable {s : State} {x : Reg} {k : Key} (named : keyIndex s.cfg.keyIndexPolicy (s.reg x) = some k)

include named

/-- The key skips test the key that Vx names (R220, R221). -/
theorem exec_skp_of_key : exec (.skp x) s = .next (s.skipIf (s.key k)) := by
  rw [exec, execSkp, named]

theorem exec_sknp_of_key : exec (.sknp x) s = .next (s.skipIf !s.key k) := by
  rw [exec, execSknp, named]

end KeyNamed

section NoKeyNamed

variable {s : State} {x : Reg} (unnamed : keyIndex s.cfg.keyIndexPolicy (s.reg x) = none)

include unnamed

/-- The key skips raise KEY_OUT_OF_RANGE with the value of Vx where it names no key (R222). -/
theorem exec_skp_of_no_key :
    exec (.skp x) s = raise .keyOutOfRange ((s.reg x).zeroExtend 16) (encode (.skp x)) s := by
  rw [exec, execSkp, unnamed]
  rfl

theorem exec_sknp_of_no_key :
    exec (.sknp x) s = raise .keyOutOfRange ((s.reg x).zeroExtend 16) (encode (.sknp x)) s := by
  rw [exec, execSknp, unnamed]
  rfl

end NoKeyNamed

/-- Settles O33, by Vx naming a key or not under the policy. -/
theorem keySkipsReadTheSnapshot : Obligations.KeySkipsReadTheSnapshot := by
  intro s x k
  have skp : BitVec.ofNat 16 (0xE09E + 256 * x.val) = encode (.skp x) :=
    ofNat_row_packXNN 0xE x 0x9E
  have sknp : BitVec.ofNat 16 (0xE0A1 + 256 * x.val) = encode (.sknp x) :=
    ofNat_row_packXNN 0xE x 0xA1
  refine ⟨decodeWord_of_eq_encode skp rfl, decodeWord_of_eq_encode sknp rfl,
    fun inRange lowDigit => ?_, fun above policy => ?_⟩
  · have named := keyIndex_some inRange lowDigit
    exact ⟨⟨_, exec_skp_of_key named, s.pc_skipIf _, onlyPcChanges_skipIf s _⟩,
      ⟨_, exec_sknp_of_key named, s.pc_skipIf_not _, onlyPcChanges_skipIf s _⟩⟩
  · have unnamed : keyIndex s.cfg.keyIndexPolicy (s.reg x) = none := by
      rw [policy, keyIndex_none above]
    rw [exec_skp_of_no_key unnamed, exec_sknp_of_no_key unnamed, skp, sknp]
    exact ⟨raise_eq .keyOutOfRange _ _ s, raise_eq .keyOutOfRange _ _ s⟩

/-! ### The wait for a key -/

/-- A pressed key is some key pressed; with every key up there is none (R223). -/
theorem someKey_of_key {s : State} {k : Key} (pressed : s.key k = true) : s.someKey = true :=
  (someKey_iff s).mpr ⟨k, pressed⟩

theorem someKey_eq_false {s : State} (noKey : ∀ k : Key, s.key k = false) : s.someKey = false := by
  rw [← Bool.not_eq_true, someKey_iff]
  rintro ⟨k, pressed⟩
  exact absurd ((noKey k).symm.trans pressed) nofun

/-- LD Vx, K writes the lowest key where one is pressed, and starts the wait where none is (R223). -/
theorem exec_ldVxK_of_someKey {s : State} (pressed : s.someKey = true) (x : Reg) :
    exec (.ldVxK x) s = .next (s.setReg x s.lowestKey) :=
  if_pos pressed

theorem exec_ldVxK_of_no_key {s : State} (noKey : s.someKey = false) (x : Reg) :
    exec (.ldVxK x) s = .next { s with waiting := true, waitX := x } := by
  rw [exec, execLdVxK, noKey]
  rfl

/-- Settles O34, by a key being pressed or not. -/
theorem loadKeyStoresLowestOrWaits : Obligations.LoadKeyStoresLowestOrWaits := by
  intro s x
  refine ⟨decodeWord_of_packXNN_eq_encode 0xF x 0x0A rfl rfl, fun k pressed lowest => ?_,
    fun noKey => ?_⟩
  · refine ⟨_, exec_ldVxK_of_someKey (someKey_of_key pressed) x, ?_, onlyRegsChange_setReg s x _⟩
    rw [State.reg_setReg_self, toNat_lowestKey s k pressed lowest]
  · exact ⟨_, exec_ldVxK_of_no_key (someKey_eq_false noKey) x, rfl, rfl, fun _ => rfl, fun _ => rfl, rfl⟩

section Awaiting

variable {s : State} (running : s.halted = false) (waiting : s.waiting = true)

include running waiting

/-- A STEP in the awaiting-key sub-state is the key check alone: no fetch, no decode (R224). -/
theorem step_of_waiting : step s = .next (awaitKey s) :=
  (if_neg (by rw [running]; exact nofun)).trans (if_pos waiting)

/-- With a key pressed, that STEP writes the lowest to V[WAIT_X] and ends the wait (R224). -/
theorem step_of_waiting_of_someKey (pressed : s.someKey = true) :
    step s = .next { s.setReg s.waitX s.lowestKey with waiting := false } := by
  rw [step_of_waiting running waiting, awaitKey, if_pos pressed]

/-- With no key pressed, that STEP changes nothing (R224). -/
theorem step_of_waiting_of_no_key (noKey : s.someKey = false) : step s = .next s := by
  rw [step_of_waiting running waiting, awaitKey, noKey]
  rfl

end Awaiting

/-- Settles O35, by a key being pressed or not. -/
theorem awaitingStepCompletesOnAKey : Obligations.AwaitingStepCompletesOnAKey := by
  intro s running waiting
  refine ⟨fun k pressed lowest => ?_, fun noKey =>
    step_of_waiting_of_no_key running waiting (someKey_eq_false noKey)⟩
  refine ⟨_, step_of_waiting_of_someKey running waiting (someKey_of_key pressed), ?_, rfl,
    fun r other => s.reg_setReg_of_ne other _, fun _ => rfl, rfl⟩
  calc ((s.setReg s.waitX s.lowestKey).reg s.waitX).toNat
    _ = s.lowestKey.toNat := by rw [State.reg_setReg_self]
    _ = k.val := toNat_lowestKey s k pressed lowest

end Sys2Proof.Machine
end

section
/-! SUPPORT. The timers: what LD Vx, DT, LD DT, Vx and LD ST, Vx answer (spec/45_timers.md R240 to
R242). -/

namespace Sys2Proof.Machine

/-- LD Vx, DT is one write of Vx (R240). -/
theorem exec_ldVxDt (x : Reg) (s : State) : exec (.ldVxDt x) s = .next (s.setReg x s.dt) := rfl

/-- LD DT, Vx and LD ST, Vx are each a write of one timer (R241, R242). -/
theorem exec_ldDtVx (x : Reg) (s : State) : exec (.ldDtVx x) s = .next { s with dt := s.reg x } := rfl

theorem exec_ldStVx (x : Reg) (s : State) : exec (.ldStVx x) s = .next { s with st := s.reg x } := rfl

/-- Settles O37: the first is a write of Vx, the other two write a timer, which no register and no byte
of memory is read from. -/
theorem timerInstructionsMoveTimers : Obligations.TimerInstructionsMoveTimers := by
  intro s x
  refine ⟨decodeWord_of_packXNN_eq_encode 0xF x 0x07 rfl rfl,
    decodeWord_of_packXNN_eq_encode 0xF x 0x15 rfl rfl,
    decodeWord_of_packXNN_eq_encode 0xF x 0x18 rfl rfl, ?vxDt, ?dtVx, ?stVx⟩
  case vxDt =>
    exact ⟨_, exec_ldVxDt x s, s.reg_setReg_self x s.dt, onlyRegsChange_setReg s x s.dt⟩
  case dtVx => exact ⟨_, exec_ldDtVx x s, rfl, fun _ => rfl, fun _ => rfl, rfl⟩
  case stVx => exact ⟨_, exec_ldStVx x s, rfl, fun _ => rfl, fun _ => rfl, rfl⟩

end Sys2Proof.Machine
end

section
/-! SUPPORT. The block transfers: the bytes a block write puts from `I`, the registers a block read takes from
there, and what a load right after a store finds (spec/46_memory_block.md R251 to R255). -/

namespace Sys2Proof.Machine

/-! ### Bytes written from an address -/

section WriteBytes

variable {s : State} (wf : Memory.wf s.cfg.font s.mem) (a : Nat) (bs : List Byte)

include wf

/-- The k-th byte of a block written from `a` is the byte at `a + k` (R64). -/
theorem byteAt_writeBytes_add {k : Nat} (hk : k < bs.length) :
    State.byteAt { s with mem := Memory.writeBytes s.cfg.font s.mem a bs } (a + k) = bs[k] := by
  rw [byteAt_writeBytes s wf, dif_pos ⟨by omega, by omega⟩]
  simp only [Nat.add_sub_cancel_left]

/-- A block write changes the bytes of the block alone (R64). -/
theorem onlyBytesChange_writeBytes :
    OnlyBytesChange a bs.length s { s with mem := Memory.writeBytes s.cfg.font s.mem a bs } :=
  ⟨fun _ => rfl, fun c outside => (byteAt_writeBytes s wf a bs c).trans (dif_neg (by omega)), rfl⟩

end WriteBytes

/-! ### Decimal digits -/

/-- The three digits of a byte as numbers: none is cut by the width of a byte (R251). -/
theorem map_toNat_bcdDigits (v : Byte) :
    (bcdDigits v).map BitVec.toNat = [v.toNat / 100, v.toNat / 10 % 10, v.toNat % 10] := by
  have hv := v.isLt
  simp only [bcdDigits, List.map_cons, List.map_nil, BitVec.toNat_ofNat, List.cons.injEq, and_true]
  omega

/-- LD B inside memory: the byte at `I + k` is the k-th digit (R251). -/
theorem toNat_byteAt_writeBcd {s : State} (wf : Memory.wf s.cfg.font s.mem) (x : Reg) {k : Nat} (hk : k < 3) :
    ((writeBcd x s).byteAt (s.i.toNat + k)).toNat =
      [(s.reg x).toNat / 100, (s.reg x).toNat / 10 % 10, (s.reg x).toNat % 10][k] := by
  rw [writeBcd, byteAt_writeBytes_add wf _ _ hk]
  exact (List.getElem_map BitVec.toNat).symm.trans (List.getElem_of_eq (map_toNat_bcdDigits _) hk)

/-- Settles O40, by the three bytes at `I` lying inside memory or not. -/
theorem bcdStoresThreeDigits : Obligations.BcdStoresThreeDigits := by
  intro s x
  have word : BitVec.ofNat 16 (0xF033 + 256 * x.val) = encode (.ldB x) := ofNat_row_packXNN 0xF x 0x33
  refine ⟨decodeWord_of_eq_encode word rfl, fun wf inside => ?_, fun outside => ?_⟩
  · exact ⟨_, exec_ldB_ok (by omega) x, toNat_byteAt_writeBcd wf x (k := 0) (by decide),
      toNat_byteAt_writeBcd wf x (k := 1) (by decide), toNat_byteAt_writeBcd wf x (k := 2) (by decide),
      onlyBytesChange_writeBytes wf _ (bcdDigits (s.reg x))⟩
  · rw [word]
    exact withBytesAtI_bad (by omega) (encode (.ldB x)) _

/-! ### Register store -/

/-- A store of at most 16 registers changes that many bytes from `I` (R253). -/
theorem onlyBytesChange_writeRegs {s : State} (wf : Memory.wf s.cfg.font s.mem) {count : Nat}
    (hc : count ≤ 16) : OnlyBytesChange s.i.toNat count s (writeRegs count s) := by
  have stored : (s.v.toList.take count).length = count := by
    rw [List.length_take, Vector.length_toList, Nat.min_eq_left hc]
  have change := onlyBytesChange_writeBytes wf s.i.toNat (s.v.toList.take count)
  rwa [stored] at change

/-- Settles O41, by the bytes from `I` lying inside memory or not. -/
theorem storeRegistersAtI : Obligations.StoreRegistersAtI := by
  rintro s x _ rfl
  rw [← lastReg_eq]
  have word : BitVec.ofNat 16 (0xF055 + 256 * x.val) = encode (.storeRegs x) :=
    ofNat_row_packXNN 0xF x 0x55
  refine ⟨decodeWord_of_eq_encode word rfl, fun wf inside => ?_, fun outside => ?_⟩
  · exact ⟨_, exec_storeRegs_ok (by omega), fun k hk => byteAt_writeRegs wf (Nat.lt_succ_of_le hk),
      onlyBytesChange_writeRegs wf (lastReg_lt s.cfg.lsRange x)⟩
  · rw [word]
    exact withBytesAtI_bad (by omega) (encode (.storeRegs x)) _

/-! ### Register load -/

/-- A load takes the registers below its count from memory and leaves the others (R254). -/
theorem reg_readRegs (count : Nat) (s : State) (r : Reg) :
    (readRegs count s).reg r = if r.val < count then s.byteAt (s.i.toNat + r.val) else s.reg r :=
  reg_loadedRegs s count r

/-- Settles O42, by the bytes from `I` lying inside memory or not. -/
theorem loadRegistersFromI : Obligations.LoadRegistersFromI := by
  rintro s x _ rfl
  rw [← lastReg_eq]
  have word : BitVec.ofNat 16 (0xF065 + 256 * x.val) = encode (.loadRegs x) :=
    ofNat_row_packXNN 0xF x 0x65
  refine ⟨decodeWord_of_eq_encode word rfl, fun inside => ?_, fun outside => ?_⟩
  · exact ⟨_, exec_loadRegs_ok (by omega),
      fun k hk => (reg_readRegs _ s k).trans (if_pos (Nat.lt_succ_of_le hk)),
      fun k hk => (reg_readRegs _ s k).trans (if_neg (by omega)), fun _ => rfl, rfl⟩
  · rw [word]
    exact withBytesAtI_bad (by omega) (encode (.loadRegs x)) _

/-! ### A load right after a store -/

/-- A load of registers that memory holds from `I` already changes nothing (R254). -/
theorem readRegs_eq_self {count : Nat} {s : State}
    (held : ∀ r : Reg, r.val < count → s.byteAt (s.i.toNat + r.val) = s.reg r) :
    readRegs count s = s := by
  have regs : (readRegs count s).v = s.v := by
    refine State.v_ext fun r => ?_
    rw [reg_readRegs]
    split
    · next below => exact held r below
    · rfl
  exact congrArg (fun v => { s with v }) regs

/-- Everything LD [I], Vx can do: the store where its bytes lie inside memory, else the fault entry (R253). -/
theorem exec_storeRegs_cases {x : Reg} {s t : State} (h : exec (.storeRegs x) s = .next t) :
    (s.i.toNat + (lastReg s.cfg.lsRange x + 1) ≤ 0x1000 ∧
      t = writeRegs (lastReg s.cfg.lsRange x + 1) s) ∨
    FaultEntered .memOutOfRange (firstBadAddr s) (encode (.storeRegs x)) { s with pc := s.pc - 2 } t := by
  rcases withBytesAtI_cases _ _ s _ with ⟨inside, e⟩ | ⟨-, -, u, e, entered⟩ <;>
    cases e.symm.trans h
  · exact .inl ⟨inside.resolve_left nofun, rfl⟩
  · exact .inr entered

/-- Settles O43: the store did not fault, so the load finds its bytes inside memory, and they are the
registers the store wrote there. -/
theorem loadAfterStoreKeepsRegisters : Obligations.LoadAfterStoreKeepsRegisters := by
  intro s t u x wf store running load
  rcases exec_storeRegs_cases store with ⟨inside, rfl⟩ | ⟨halted, -⟩
  case inr => exact absurd (running.symm.trans halted) nofun
  cases (exec_loadRegs_ok (s := writeRegs _ s) inside).symm.trans load
  exact readRegs_eq_self fun r below => byteAt_writeRegs wf below

end Sys2Proof.Machine
end

section
/-! SUPPORT. Faults, halting and events: every STEP ends in silence, with one event of the table of events, or
with the fault entry of a row of the table of causes (spec/60_exceptions.md R271 to R278, R285). -/

namespace Sys2Proof.Machine

/-! ### The timers' tick and the tone -/

/-- TICK writes the two timers alone (R276). -/
theorem tick_frame (s : State) : tick s = { s with dt := (tick s).dt, st := (tick s).st } := by
  unfold tick
  split <;> rfl

/-- TICK while halted, and while not (R273, R276). -/
theorem transact_tick_of_halted {s : State} (halted : s.halted = true) :
    transact .tick s = .next s :=
  congrArg Host.Outcome.next (if_pos halted)

theorem transact_tick_of_running {s : State} (running : s.halted = false) :
    transact .tick s = .next { s with dt := decTimer s.dt, st := decTimer s.st } := by
  rw [transact, tick, running]
  rfl

/-- Settles O38: while not halted, each timer is decremented on its own. -/
theorem tickDecrementsToZero : Obligations.TickDecrementsToZero := by
  refine fun s => ⟨transact_tick_of_halted, fun running => ?_⟩
  exact ⟨_, transact_tick_of_running running, toNat_decTimer s.dt, toNat_decTimer s.st, rfl⟩

/-- The tone is high exactly while ST is above 0 and the core is not halted (R278). -/
theorem tone_iff (s : State) : tone s = true ↔ s.st.toNat > 0 ∧ s.halted = false := by
  have nonzero : s.st ≠ 0 ↔ s.st.toNat > 0 := BitVec.toNat_ne_iff_ne.symm.trans Nat.pos_iff_ne_zero.symm
  rw [tone, Bool.and_eq_true, bne_iff_ne, nonzero, Bool.not_eq_true']

/-- Settles O39: LD ST, Vx writes the timer that the tone reads, and nothing else that it reads. -/
theorem toneFollowsSoundTimer : Obligations.ToneFollowsSoundTimer := by
  refine fun s t x => ⟨tone_iff s, fun load running => ?_⟩
  cases (exec_ldStVx x s).symm.trans load
  exact (tone_iff _).trans (and_iff_left running)

/-! ### The halted core -/

/-- A STEP while halted changes nothing (R273). -/
theorem step_of_halted {s : State} (halted : s.halted = true) : step s = .next s := if_pos halted

/-- Settles O49: each transaction but RESET tests HALTED first, and RESET clears it. -/
theorem haltedCoreIsFrozen : Obligations.HaltedCoreIsFrozen := by
  intro s halted
  refine ⟨step_of_halted halted, transact_tick_of_halted halted,
    fun k pressed => (keyTransactionSetsOneKey s k pressed).1 halted, ?_, fun image t h => ?_⟩
  · rw [tone, halted, Bool.not_true, Bool.and_false]
  · obtain ⟨-, rfl⟩ := transact_reset_next h
    rfl

/-! ### From a row of the table of causes to its fault -/

/-- KeyIndex gives no key exactly above 0x0F under KEY_INDEX_POLICY = FAULT (R222). -/
theorem keyIndex_eq_none_iff {policy : KeyIndexPolicy} {v : Byte} :
    keyIndex policy v = none ↔ policy = .fault ∧ v.toNat > 0x0F := by
  refine ⟨fun unnamed => ?_, fun ⟨hp, above⟩ => hp ▸ keyIndex_none above⟩
  have noKey : ¬ (v.toNat ≤ 0x0F ∨ policy = .lowNibble) := fun inRange =>
    nomatch (keyIndex_some inRange (k := ⟨v.toNat % 16, Nat.mod_lt _ (by decide)⟩) rfl).symm.trans unnamed
  cases policy with
  | fault => exact ⟨rfl, Nat.lt_of_not_le fun inRange => noKey (.inl inRange)⟩
  | lowNibble => exact absurd (.inr rfl) noKey

/-- The bytes that the block transfers access at `I` (R255). -/
theorem bytesAtI_storeRegs (s : State) (x : Reg) :
    bytesAtI s (.storeRegs x) = lastReg s.cfg.lsRange x + 1 := by
  rw [bytesAtI, lastReg_eq]

theorem bytesAtI_loadRegs (s : State) (x : Reg) :
    bytesAtI s (.loadRegs x) = lastReg s.cfg.lsRange x + 1 := by
  rw [bytesAtI, lastReg_eq]

/-- An instruction that accesses bytes at `I` is one checked access of that many bytes (R61, R62). -/
theorem exec_eq_withBytesAtI {s : State} {i : Instr} (accesses : bytesAtI s i ≠ 0) :
    ∃ effect, exec i s = withBytesAtI (bytesAtI s i) (encode i) s effect := by
  cases i with
  | drw x y n => exact ⟨_, rfl⟩
  | ldB x => exact ⟨_, rfl⟩
  | storeRegs x => rw [bytesAtI_storeRegs]; exact ⟨_, rfl⟩
  | loadRegs x => rw [bytesAtI_loadRegs]; exact ⟨_, rfl⟩
  | _ => exact absurd rfl accesses

/-- A fault that the fetched instruction enters is one that the STEP enters from the state before it. -/
theorem step_enters_of_exec {s : State} {i : Instr} {code : FaultCode} {addr op : Word}
    (fetches : s.fetches) (word : s.wordAt s.pc.toNat = op) (decoded : decodeWord op = .instr i)
    (answer : ∃ t, exec i (afterFetch s) = .next t ∧
      FaultEntered code addr (encode i) { afterFetch s with pc := (afterFetch s).pc - 2 } t) :
    ∃ t, step s = .next t ∧ FaultEntered code addr op s t := by
  obtain ⟨t, executed, entered⟩ := answer
  rw [(encode_of_decodeWord decoded).1] at entered
  refine ⟨t, ?_, faultEntered_of_afterFetch entered⟩
  rw [step_of_fetches fetches, fetchedWord, word, decoded]
  exact executed

/-- A STEP on which a row of the table holds enters that row's fault (R271, R272). -/
theorem step_of_faultRow {s : State} (running : s.halted = false) (awake : s.waiting = false)
    {code : FaultCode} {addr op : Word} (row : FaultRow s code addr op) :
    ∃ t, step s = .next t ∧ FaultEntered code addr op s t := by
  obtain ⟨ofOutside, ofOdd, -⟩ := fetchReadsTheWordOrFaults s running awake
  cases row with
  | fetchOutOfRange outside => exact ofOutside outside
  | fetchMisaligned inRange check odd => exact ofOdd inRange check odd
  | stackUnderflow _ fetches word ret empty =>
    refine step_enters_of_exec fetches word ret ?_
    rw [exec_ret_of_nil (s := afterFetch s) empty]
    exact raise_eq ..
  | stackOverflow _ nnn fetches word call full =>
    refine step_enters_of_exec fetches word call ?_
    rw [exec_call_of_full (s := afterFetch s) full]
    exact raise_eq ..
  | memOutOfRange _ i fetches word decoded k used outside =>
    obtain ⟨effect, access⟩ := exec_eq_withBytesAtI (s := afterFetch s) (Nat.ne_zero_of_lt used)
    refine step_enters_of_exec fetches word decoded ?_
    rw [access]
    refine withBytesAtI_bad (s := afterFetch s) (n := bytesAtI s i) ?_ _ effect
    show ¬ (bytesAtI s i = 0 ∨ s.i.toNat + bytesAtI s i ≤ 0x1000)
    omega
  | keyOutOfRange _ x fetches word skip policy above =>
    have unnamed := keyIndex_eq_none_iff.mpr ⟨policy, above⟩
    rcases skip with skp | sknp
    · refine step_enters_of_exec fetches word skp ?_
      rw [exec_skp_of_no_key (s := afterFetch s) unnamed]
      exact raise_eq ..
    · refine step_enters_of_exec fetches word sknp ?_
      rw [exec_sknp_of_no_key (s := afterFetch s) unnamed]
      exact raise_eq ..

/-! ### How a STEP ends -/

/-- What a STEP from `s` to `t` does to HALTED and to the event stream. -/
inductive StepOutcome (s t : State) : Prop where
  /-- No event, HALTED as it was. -/
  | silent (halted : t.halted = s.halted) (events : t.events = s.events)
  /-- One event by its rule, HALTED as it was (R285). -/
  | emits (e : Event) (halted : t.halted = s.halted) (events : t.events = s.events ++ [e])
      (emitted : EmittedBy s t e)
  /-- The fault entry of a row of the table of causes (R271, R272). -/
  | faults {code : FaultCode} {addr op : Word} (emitted : EmittedBy s t (.fault code s.pc addr op))

/-- A skip changes neither HALTED nor the event stream. -/
theorem StepOutcome.of_skipIf {s : State} (c : Bool) : StepOutcome s ((afterFetch s).skipIf c) := by
  rw [State.skipIf_eq]
  exact .silent rfl rfl

/-- The awaiting-key check neither halts the core nor emits an event (R224, R227). -/
theorem StepOutcome.of_awaitKey (s : State) : StepOutcome s (awaitKey s) := by
  unfold awaitKey
  split <;> exact .silent rfl rfl

/-- The address of an instruction, seen from the state its fetch left (R23). -/
theorem pcStart_afterFetch (s : State) : (afterFetch s).pcStart = s.pc := pc_add_sub s.pc

/-- A STEP on which a row of the table of causes holds ends in its fault (R271). -/
theorem step_outcome_of_faultRow {s : State} (running : s.halted = false) (awake : s.waiting = false)
    {code : FaultCode} {addr op : Word} (row : FaultRow s code addr op) :
    ∃ t, step s = .next t ∧ StepOutcome s t := by
  obtain ⟨t, e, entered⟩ := step_of_faultRow running awake row
  exact ⟨t, e, .faults ⟨running, awake, rfl, row, entered⟩⟩

section Fetched

variable {s : State} (fetches : s.fetches)

include fetches

/-- A fault entered while the fetched word executes, where its row of the table holds. -/
theorem outcome_of_faultEntered {r : Result} {code : FaultCode} {addr op : Word}
    (row : FaultRow s code addr op)
    (answer : ∃ t, r = .next t ∧
      FaultEntered code addr op { afterFetch s with pc := (afterFetch s).pc - 2 } t) :
    ∃ t, r = .next t ∧ StepOutcome s t := by
  obtain ⟨t, executed, entered⟩ := answer
  obtain ⟨running, awake, -⟩ := fetches
  exact ⟨t, executed, .faults ⟨running, awake, rfl, row, faultEntered_of_afterFetch entered⟩⟩

/-- A fetched word that selects no instruction emits its report (R102). -/
theorem outcome_of_unknown {op : Word} (word : s.wordAt s.pc.toNat = op)
    (unknown : decodeWord op = .unknown op) :
    ∃ t, execUnknown op (afterFetch s) = .next t ∧ StepOutcome s t :=
  ⟨_, rfl, .emits _ rfl rfl ⟨fetches, word.symm, pcStart_afterFetch s, unknown⟩⟩

variable {i : Instr} (word : s.wordAt s.pc.toNat = encode i) (decoded : decodeWord (encode i) = .instr i)

include word

/-- A key skip skips or not, or faults on a value that names no key (R220 to R222). -/
theorem outcome_of_keySkip {x : Reg}
    (skip : decodeWord (encode i) = .instr (.skp x) ∨ decodeWord (encode i) = .instr (.sknp x)) {r : Result}
    (unnamed : keyIndex s.cfg.keyIndexPolicy (s.reg x) = none →
      r = raise .keyOutOfRange ((s.reg x).zeroExtend 16) (encode i) (afterFetch s))
    (named : ∀ k, keyIndex s.cfg.keyIndexPolicy (s.reg x) = some k →
      ∃ c, r = .next ((afterFetch s).skipIf c)) :
    ∃ t, r = .next t ∧ StepOutcome s t := by
  cases key : keyIndex s.cfg.keyIndexPolicy (s.reg x) with
  | none =>
    obtain ⟨policy, above⟩ := keyIndex_eq_none_iff.mp key
    rw [unnamed key]
    exact outcome_of_faultEntered fetches (.keyOutOfRange _ x fetches word skip policy above)
      (raise_eq ..)
  | some k =>
    obtain ⟨c, skips⟩ := named k key
    exact ⟨_, skips, .of_skipIf c⟩

include decoded

/-- A checked access at `I` has its effect, or faults on a byte above 0xFFF (R62, R63). -/
theorem outcome_of_withBytesAtI {n : Nat} {effect : State → State} (accessed : bytesAtI s i = n)
    (ok : StepOutcome s (effect (afterFetch s))) :
    ∃ t, withBytesAtI n (encode i) (afterFetch s) effect = .next t ∧ StepOutcome s t := by
  rcases withBytesAtI_cases n (encode i) (afterFetch s) effect with ⟨-, e⟩ | ⟨nonempty, outside, answer⟩
  · exact ⟨_, e, ok⟩
  · have beyond : s.i.toNat + (n - 1) > 0xFFF := by
      change s.i.toNat + n > 0x1000 at outside
      omega
    have used : n - 1 < bytesAtI s i := accessed.symm ▸ Nat.sub_one_lt nonempty
    exact outcome_of_faultEntered fetches
      (.memOutOfRange _ i fetches word decoded (n - 1) used beyond) answer

/-- Every instruction that a STEP fetches ends in one of the three ways. -/
theorem exec_outcome : ∃ t, exec i (afterFetch s) = .next t ∧ StepOutcome s t := by
  cases i with
  | cls => exact ⟨_, rfl, .emits _ rfl rfl ⟨fetches, word ▸ decoded⟩⟩
  | sys nnn =>
    exact ⟨_, rfl, .emits _ rfl rfl ⟨fetches, word.symm, pcStart_afterFetch s, nnn, decoded⟩⟩
  | ret =>
    cases top : s.stack with
    | nil =>
      rw [exec_ret_of_nil (s := afterFetch s) top]
      exact outcome_of_faultEntered fetches (.stackUnderflow _ fetches word decoded top) (raise_eq ..)
    | cons a rest => exact ⟨_, exec_ret_of_cons (s := afterFetch s) top, .silent rfl rfl⟩
  | call nnn =>
    by_cases full : s.cfg.stackDepth = some s.stack.length
    · rw [exec_call_of_full (s := afterFetch s) full]
      exact outcome_of_faultEntered fetches (.stackOverflow _ nnn fetches word decoded full)
        (raise_eq ..)
    · exact ⟨_, exec_call_of_room (s := afterFetch s) full nnn, .silent rfl rfl⟩
  | skp x =>
    exact outcome_of_keySkip fetches word (.inl decoded) (exec_skp_of_no_key (s := afterFetch s))
      fun k key => ⟨_, exec_skp_of_key (s := afterFetch s) key⟩
  | sknp x =>
    exact outcome_of_keySkip fetches word (.inr decoded) (exec_sknp_of_no_key (s := afterFetch s))
      fun k key => ⟨_, exec_sknp_of_key (s := afterFetch s) key⟩
  | drw x y n =>
    exact outcome_of_withBytesAtI fetches word decoded rfl <|
      .emits _ rfl rfl ⟨fetches, rfl, x, y, n, word ▸ decoded⟩
  | ldB => exact outcome_of_withBytesAtI fetches word decoded rfl (.silent rfl rfl)
  | storeRegs x =>
    exact outcome_of_withBytesAtI fetches word decoded (bytesAtI_storeRegs s x) (.silent rfl rfl)
  | loadRegs x =>
    exact outcome_of_withBytesAtI fetches word decoded (bytesAtI_loadRegs s x) (.silent rfl rfl)
  | seImm | sneImm | seReg | sneReg => exact ⟨_, rfl, .of_skipIf _⟩
  | ldVxK x =>
    cases pressed : s.someKey with
    | true => exact ⟨_, exec_ldVxK_of_someKey (s := afterFetch s) pressed x, .silent rfl rfl⟩
    | false => exact ⟨_, exec_ldVxK_of_no_key (s := afterFetch s) pressed x, .silent rfl rfl⟩
  | jp | jpV0 | ldImm | addImm | ldReg | orReg | andReg | xorReg | addReg | subReg | shr | subnReg
  | shl | ldI | addI | ldF | rnd | ldVxDt | ldDtVx | ldStVx => exact ⟨_, rfl, .silent rfl rfl⟩

end Fetched

/-- A STEP that fetches ends in one of the three ways, by what the fetched word selects (R41, R95). -/
theorem step_outcome_of_fetches {s : State} (fetches : s.fetches) :
    ∃ t, step s = .next t ∧ StepOutcome s t := by
  have names := decodeWord_names (fetchedWord s)
  rw [step_of_fetches fetches]
  cases decoded : decodeWord (fetchedWord s) with
  | instr i =>
    obtain ⟨word, -⟩ := encode_of_decodeWord decoded
    exact exec_outcome fetches word.symm (word ▸ decoded)
  | unknown op =>
    have word : op = fetchedWord s := by rwa [decoded] at names
    exact outcome_of_unknown fetches word.symm (word ▸ decoded)

/-- Every STEP answers a state, in one of the three ways (R271, R285, R327). -/
theorem step_outcome (s : State) : ∃ t, step s = .next t ∧ StepOutcome s t := by
  cases halted : s.halted with
  | true => exact ⟨s, step_of_halted halted, .silent rfl rfl⟩
  | false =>
    cases waiting : s.waiting with
    | true => exact ⟨_, step_of_waiting halted waiting, .of_awaitKey s⟩
    | false =>
      rcases fetchFault_cases s with ⟨outside, -⟩ | ⟨inRange, check, odd, -⟩ | ⟨inRange, aligned, -⟩
      · exact step_outcome_of_faultRow halted waiting (.fetchOutOfRange outside)
      · exact step_outcome_of_faultRow halted waiting (.fetchMisaligned inRange check odd)
      · exact step_outcome_of_fetches ⟨halted, waiting, inRange, aligned⟩

/-- The one state a STEP answers is reached in one of the three ways. -/
theorem StepOutcome.of_step {s t : State} (h : step s = .next t) : StepOutcome s t := by
  obtain ⟨u, e, outcome⟩ := step_outcome s
  cases e.symm.trans h
  exact outcome

/-! ### The table of causes and the table of events -/

/-- No row has code 0 (R271). -/
theorem FaultRow.code_ne_noFault {s : State} {code : FaultCode} {addr op : Word}
    (row : FaultRow s code addr op) : code ≠ .noFault := by
  cases row <;> exact nofun

/-- A fault entry emits the one Fault event (R272). -/
theorem FaultEntered.events {s t : State} {code : FaultCode} {addr op : Word}
    (h : FaultEntered code addr op s t) : t.events = s.events ++ [.fault code s.pc addr op] := by
  obtain ⟨-, -, -, -, -, events, -⟩ := h
  exact events

/-- Settles O47: a row's STEP enters its fault, and a STEP that ends in a fault has a row. -/
theorem faultsAreExactlyTheTable : Obligations.FaultsAreExactlyTheTable := by
  intro s running awake
  refine ⟨fun code addr op row => step_of_faultRow running awake row, fun noRow => ?_⟩
  obtain ⟨t, e, outcome⟩ := step_outcome s
  refine ⟨t, e, ?_⟩
  cases outcome with
  | silent halted | emits _ halted => exact halted.trans running
  | faults emitted =>
    obtain ⟨-, -, -, row, -⟩ := emitted
    exact absurd row (noRow _ _ _)

/-- Settles O48: of the three ways a STEP ends, the fault entry alone halts the core. -/
theorem faultsArePrecise : Obligations.FaultsArePrecise := by
  intro s t running h nowHalted
  cases StepOutcome.of_step h with
  | silent halted | emits _ halted =>
    exact absurd (nowHalted.symm.trans (halted.trans running)) nofun
  | faults emitted =>
    obtain ⟨-, awake, -, row, entered⟩ := emitted
    exact ⟨awake, _, _, _, row.code_ne_noFault, row, entered⟩

/-- Settles O50, by the four transactions and the three ways a STEP ends. -/
theorem eachEventHasItsEmitter : Obligations.EachEventHasItsEmitter := by
  intro s t tr h
  cases tr with
  | reset image =>
    obtain ⟨-, rfl⟩ := transact_reset_next h
    exact .inl rfl
  | step =>
    cases StepOutcome.of_step h with
    | silent _ events => exact .inl events
    | emits e _ events emitted => exact .inr ⟨e, rfl, events, emitted⟩
    | faults emitted =>
      have ⟨_, _, _, _, entered⟩ := emitted
      exact .inr ⟨_, rfl, entered.events, emitted⟩
  | tick => cases h; exact .inl (congrArg State.events (tick_frame s) :)
  | key k pressed => cases h; exact .inl (congrArg State.events (setKey_frame s k pressed) :)

end Sys2Proof.Machine
end

section
/-! SUPPORT. The two answers of a RESET and the state it leaves, a STEP of an Idle state, and the transactions
that answer a next state (spec/70_reset_and_hazards.md R310, R311, R326, R327). -/

namespace Sys2Proof.Machine

/-- Settles O12: each of the ways a STEP ends has a state it ends in. -/
theorem everyStepHasASuccessor : Obligations.EveryStepHasASuccessor := by
  intro s
  obtain ⟨t, e, -⟩ := step_outcome s
  exact ⟨t, e⟩

/-! ### The answers of a RESET -/

/-- A RESET whose image fits is performed, and one whose image does not fit is refused (R310, R311). -/
theorem transact_reset_of_fits {image : List Byte} (fits : image.length ≤ 3584) (s : State) :
    transact (.reset image) s = .next (resetWith image s) := if_pos fits

theorem transact_reset_of_oversized {image : List Byte} (oversized : image.length > 3584) (s : State) :
    transact (.reset image) s = .refused .imageTooLong := if_neg (Nat.not_le.mpr oversized)

/-- Settles O53: only RESET looks at an image's length; STEP has a successor, and TICK and KEY answer the
state they compute. -/
theorem onlyOversizedResetIsRefused : Obligations.OnlyOversizedResetIsRefused := by
  refine fun s tr => ⟨?_, fun fits => ?_⟩
  · rintro image rfl oversized
    exact transact_reset_of_oversized oversized s
  · cases tr with
    | reset image => exact ⟨_, transact_reset_of_fits (fits image rfl) s⟩
    | step => exact everyStepHasASuccessor s
    | tick => exact ⟨tick s, rfl⟩
    | key k pressed => exact ⟨setKey k pressed s, rfl⟩

/-! ### The state a RESET leaves -/

/-- RESET with an empty image, from the reset state, is the reset state (R310). -/
theorem resetWith_nil_reset : resetWith [] State.reset = State.reset := rfl

/-- Settles O56: the reset state is one that a RESET leaves. -/
theorem invariantHoldsAtReset : Obligations.InvariantHoldsAtReset := by
  unfold Obligations.InvariantHoldsAtReset
  rw [← resetWith_nil_reset]
  exact inv_resetWith (image := []) (Nat.zero_le maxImage) State.reset

/-- The reset contents of the font's addresses are its glyphs' rows, five to a glyph (R65, R66). -/
theorem resetByte_glyph (font : Font) (g : Fin 16) (j : Fin 5) :
    resetByte font (5 * g.val + j.val) = font[g.val][j.val] := by
  have inFont : 5 * g.val + j.val < 80 := by omega
  have glyph : (5 * g.val + j.val) / 5 = g.val := by omega
  have row : (5 * g.val + j.val) % 5 = j.val := by omega
  simp only [resetByte, dif_pos inFont, glyph, row]

/-- Above the font the reset contents are 0 (R36). -/
theorem resetByte_above_font (font : Font) {a : Nat} (h : 0x050 ≤ a) : resetByte font a = 0 :=
  dif_neg (Nat.not_lt.mpr h)

section Reset

variable (image : List Byte) (s : State)

/-- Memory after RESET(image): the image from 0x200, every other address at its reset contents (R310). -/
theorem byteAt_resetWith (a : Nat) :
    (resetWith image s).byteAt a =
      if h : 0x200 ≤ a ∧ a < 0x200 + image.length then image[a - 0x200]'(by omega)
      else resetByte s.cfg.font a :=
  Memory.read_writeBytes s.cfg.font (Memory.wf_nil s.cfg.font).1 0x200 image a

/-- A byte of the image lies at 0x200 plus its number, and outside the image memory is at its reset contents
(R310, R311). -/
theorem byteAt_resetWith_image {k : Nat} {b : Byte} (h : image[k]? = some b) :
    (resetWith image s).byteAt (0x200 + k) = b := by
  obtain ⟨inImage, byte⟩ := List.getElem?_eq_some_iff.mp h
  rw [byteAt_resetWith, dif_pos ⟨by omega, by omega⟩]
  simpa only [Nat.add_sub_cancel_left] using byte

theorem byteAt_resetWith_outside {a : Nat} (h : a < 0x200 ∨ 0x200 + image.length ≤ a) :
    (resetWith image s).byteAt a = resetByte s.cfg.font a := by
  rw [byteAt_resetWith, dif_neg (by omega)]

/-- Every register is 0 and every key released after a RESET (R36). -/
theorem reg_resetWith (x : Reg) : (resetWith image s).reg x = 0 := Vector.getElem_replicate ..

theorem key_resetWith (k : Key) : (resetWith image s).key k = false := Vector.getElem_replicate ..

end Reset

/-- Settles O52: the registers, keys and pixels read 0, memory reads the font, zeros and the image, and the
other fields are those of the reset state. -/
theorem resetPutsEveryStateInPlace : Obligations.ResetPutsEveryStateInPlace := by
  intro s image fits
  refine ⟨resetWith image s, transact_reset_of_fits fits s, reg_resetWith image s, rfl, rfl, rfl, rfl, rfl,
    key_resetWith image s, fun r c _ _ => Framebuffer.pixel_blank r c, fun g j => ?font,
    fun a above below => ?gap, fun k b => byteAt_resetWith_image image s, fun a beyond _ => ?rest,
    rfl, rfl, rfl, rfl, rfl, rfl, rfl, rfl⟩
  case font =>
    rw [byteAt_resetWith_outside image s (.inl (by omega)), resetByte_glyph]
  case gap =>
    rw [byteAt_resetWith_outside image s (.inl below), resetByte_above_font _ above]
  case rest =>
    rw [byteAt_resetWith_outside image s (.inr beyond), resetByte_above_font _ (by omega)]

/-! ### The idle loop -/

/-- The word of a jump, as the spec writes it: `0x1000 | nnn` (R123, R326). -/
theorem or_addrOperand_eq_encode_jp (a : Addr12) : 0x1000 ||| addrOperand a = encode (.jp a) := rfl

/-- An Idle state fetches, with an even address where PC_ALIGN_CHECK asks for one (R71, R326). -/
theorem State.idleAt.fetches {s : State} {a : Addr12} (idle : s.idleAt a)
    (aligned : s.cfg.pcAlignCheck = true → a.toNat % 2 = 0) : s.fetches := by
  obtain ⟨running, awake, pc, inRange, -⟩ := idle
  have address : s.pc.toNat = a.toNat := pc ▸ toNat_addrOperand a
  exact ⟨running, awake, address ▸ inRange, address ▸ aligned⟩

/-- The word an Idle state fetches is the jump to its own address (R326). -/
theorem State.idleAt.decodeWord_fetchedWord {s : State} {a : Addr12} (idle : s.idleAt a) :
    decodeWord (fetchedWord s) = .instr (.jp a) := by
  obtain ⟨-, -, pc, -, word⟩ := idle
  refine decodeWord_of_eq_encode ?_ rfl
  rw [fetchedWord, pc, toNat_addrOperand, word, or_addrOperand_eq_encode_jp]

/-- Settles O55: the jump puts `pc` back to where the fetch advanced it from. -/
theorem idleStateIsUnchangedByStep : Obligations.IdleStateIsUnchangedByStep := by
  intro s a idle aligned
  have ⟨_, _, pc, _⟩ := idle
  calc step s
    _ = execDecoded (decodeWord (fetchedWord s)) (afterFetch s) :=
      step_of_fetches (idle.fetches aligned)
    _ = .next (s.setPc (addrOperand a)) := by rw [idle.decodeWord_fetchedWord]; rfl
    _ = .next s := by rw [← pc]; rfl

end Sys2Proof.Machine
end
